-- ==== Sys2Proof/Word.lean ====
section
/-! DEFINITION. The 32-bit word and its two readings (rules R6, R7). `u(w)` of the spec is `w.toNat`,
`s(w)` is `w.toInt`; bit `k` of the spec is `w.getLsbD k`, bit 0 the low-order one. -/

namespace Sys2Proof

/-- R7: a word is a string of 32 bits, the unit of memory, registers and instructions. -/
abbrev Word := BitVec 32

/-- R7: `wrap32(n)` is the word whose unsigned value is `n mod 2^32`. -/
abbrev wrap32 (n : Int) : Word := BitVec.ofInt 32 n

/-- R7: `INT_MIN`, the word 0x80000000. -/
def intMin : Word := 0x80000000#32

/-- R7: `INT_MAX`, the word 0x7FFFFFFF. -/
def intMax : Word := 0x7FFFFFFF#32

end Sys2Proof
end

