-- ==== Sys2Proof/Config.lean ====
section
/-! DEFINITION. What an implementation fixes (rule R5): the parameters the spec marks "argument", their
defaults and constraints, and the two reset constants. The machine has no undefined value, so there is
no free value here. -/

namespace Sys2Proof

/-- R15: the four condition flags, and R61: a predicate, a mask over them. -/
abbrev Flags := BitVec 4

/-- R61: the 4-bit predicate of an instruction; bit `k` is tested against flag bit `k`. -/
abbrev Predicate := BitVec 4

/-- R5: the parameters marked "argument". No instruction and no host move changes them (R24). -/
structure Config where
  /-- `MEM_WORDS`, written N: the storage words are `M[0]` to `M[N-1]`. -/
  memWords : Nat
  /-- `IO_IN_ADDR`: a load here reads the console. -/
  ioIn : Nat
  /-- `IO_OUT_ADDR`: a store here writes the console. -/
  ioOut : Nat
  deriving DecidableEq, Repr

/-- R5: the stated defaults, 512 words with the console at 510 (in) and 511 (out). -/
def Config.standard : Config := { memWords := 512, ioIn := 510, ioOut := 511 }

/-- R5: the constraints on the parameters. -/
abbrev Config.Valid (c : Config) : Prop :=
  2 ≤ c.memWords ∧ c.memWords ≤ 2 ^ 31 ∧ c.ioIn < c.memWords ∧ c.ioOut < c.memWords ∧ c.ioIn ≠ c.ioOut

/-- R5: `RESET_PC`. -/
def Config.resetPc : Word := 0#32

/-- R5: `FLAGS_RESET`, the value ALWAYS. -/
def Config.resetFlags : Flags := 0b1111#4

end Sys2Proof
end

