-- ==== Sys2Proof/Machine/Flags.lean ====
section
/-! DEFINITION. The condition flags: their bits (rule R15), the flags of a result (R101), and the predicate
test (R83). -/

namespace Sys2Proof.Machine

/-- R15: minus, bit 0. -/
def flagM : Flags := 0b0001#4
/-- R15: zero, bit 1. -/
def flagZ : Flags := 0b0010#4
/-- R15: positive, bit 2. -/
def flagP : Flags := 0b0100#4
/-- R15: overflow, bit 3. -/
def flagV : Flags := 0b1000#4
/-- R15: ALWAYS, all four bits. -/
def always : Predicate := 0b1111#4
/-- R15: NEVER. -/
def never : Predicate := 0b0000#4

/-- R101: the M, Z or P flag of a 32-bit result. -/
def signFlag (result : Word) : Flags :=
  if result.toInt < 0 then flagM else if result.toInt = 0 then flagZ else flagP

/-- R101: `FlagsOf(exact, result)`; V when the exact result did not fit. -/
def flagsOf (exact : Int) (result : Word) : Flags :=
  signFlag result ||| (if exact = result.toInt then 0#4 else flagV)

/-- R83: an instruction is executed when its predicate shares a bit with the flags, or is ALWAYS. -/
abbrev Executes (pred : Predicate) (flags : Flags) : Prop := pred &&& flags ≠ 0#4 ∨ pred = always

end Sys2Proof.Machine
end

