-- ==== Sys2Proof/Syntax.lean ====
section
/-! DEFINITION. The instructions as data: the nine opcodes (rule R58), the five other fields that every
instruction word has (rule R55), and `Instr` with one constructor per row of the opcode table. -/

namespace Sys2Proof

/-- R10: a register number, 0 to 15; every value is legal in every register field. -/
abbrev RegNum := Fin 16

/-- R58: the closed set of opcodes. -/
inductive Opcode where
  | halt
  | load
  | store
  | add
  | sub
  | mul
  | div
  | and
  | or
  deriving DecidableEq, Repr

/-- R55, R56: the fields of an instruction other than its opcode. The offset is the signed value of its
field; `WellFormed` bounds it. -/
structure Fields where
  /-- Mask over the flags (R61). -/
  pred : Predicate
  /-- Destination register; for STORE the register whose value is stored. -/
  target : RegNum
  /-- The register of the left operand. -/
  src1 : RegNum
  /-- The register of the right operand. -/
  src2 : RegNum
  /-- The signed immediate, added to the value of `src2`. -/
  offset : Int
  deriving DecidableEq, Repr

/-- One constructor per row of the opcode table. R63: every field is present in every instruction,
used or not. -/
inductive Instr where
  | halt (f : Fields)
  | load (f : Fields)
  | store (f : Fields)
  | add (f : Fields)
  | sub (f : Fields)
  | mul (f : Fields)
  | div (f : Fields)
  | and (f : Fields)
  | or (f : Fields)
  deriving DecidableEq, Repr

/-- The opcode of an instruction (R58). -/
def Instr.opcode : Instr → Opcode
  | .halt _ => .halt
  | .load _ => .load
  | .store _ => .store
  | .add _ => .add
  | .sub _ => .sub
  | .mul _ => .mul
  | .div _ => .div
  | .and _ => .and
  | .or _ => .or

/-- The other fields of an instruction (R55). -/
def Instr.fields : Instr → Fields
  | .halt f => f
  | .load f => f
  | .store f => f
  | .add f => f
  | .sub f => f
  | .mul f => f
  | .div f => f
  | .and f => f
  | .or f => f

/-- The instruction with a given opcode and given fields: the record of R56 as a constructor. -/
def Opcode.instr : Opcode → Fields → Instr
  | .halt, f => .halt f
  | .load, f => .load f
  | .store, f => .store f
  | .add, f => .add f
  | .sub, f => .sub f
  | .mul, f => .mul f
  | .div, f => .div f
  | .and, f => .and f
  | .or, f => .or f

end Sys2Proof
end

