-- ==== Sys2Proof/Machine/Alu.lean ====
section
/-! DEFINITION. The ALU (rules R100 to R109): for each opcode the exact integer result, then its wrap to 32
bits and its flags. `none` is the ALU's one fault, DivisionByZero. -/

namespace Sys2Proof.Machine

/-- R102. -/
def exactAdd (left right : Word) : Option Int := some (left.toInt + right.toInt)
/-- R103: left minus right. -/
def exactSub (left right : Word) : Option Int := some (left.toInt - right.toInt)
/-- R104: the signed product. -/
def exactMul (left right : Word) : Option Int := some (left.toInt * right.toInt)
/-- R105: the quotient rounded toward minus infinity; no result for a zero divisor. -/
def exactDiv (left right : Word) : Option Int :=
  if right.toInt = 0 then none else some (Int.fdiv left.toInt right.toInt)
/-- R106: bit by bit. -/
def exactAnd (left right : Word) : Option Int := some (left &&& right).toInt
/-- R107: bit by bit. -/
def exactOr (left right : Word) : Option Int := some (left ||| right).toInt
/-- R108: LOAD and STORE compute their address as ADD computes a sum. -/
def exactAddress (left right : Word) : Option Int := some (left.toInt + right.toInt)
/-- R109: HALT returns 0 whatever its operands are. -/
def exactHalt (_left _right : Word) : Option Int := some 0

/-- R100: the exact result by opcode. -/
def aluExact : Opcode → Word → Word → Option Int
  | .halt => exactHalt
  | .load => exactAddress
  | .store => exactAddress
  | .add => exactAdd
  | .sub => exactSub
  | .mul => exactMul
  | .div => exactDiv
  | .and => exactAnd
  | .or => exactOr

/-- R100: the 32-bit result of an exact result, and its flags. -/
def aluResult (exact : Int) : Word × Flags := (wrap32 exact, flagsOf exact (wrap32 exact))

/-- R86, R100: `ALU(op, left, right)`, a pure function; `none` is DivisionByZero. -/
def alu (op : Opcode) (left right : Word) : Option (Word × Flags) :=
  (aluExact op left right).map aluResult

end Sys2Proof.Machine
end

