-- ==== Sys2Proof/WellFormed.lean ====
section
/-! DEFINITION. Which instructions are valid (rule R57): "an opcode of rule R58, a predicate 0 to 15, three
register numbers 0 to 15 and an offset -512 to 511". The types of `Instr` hold all of it but the bound on
the offset. -/

namespace Sys2Proof

/-- R57: the offset fits its 10-bit signed field. -/
abbrev Fields.WellFormed (f : Fields) : Prop := -512 ≤ f.offset ∧ f.offset ≤ 511

/-- R57: a valid instruction. -/
abbrev Instr.WellFormed (i : Instr) : Prop := i.fields.WellFormed

end Sys2Proof
end

