-- ==== Sys2Proof/Decode.lean ====
section
/-! DEFINITION. The BitField codec (rules R50 to R54), the instruction format (R55), the opcode map (R58)
and the instruction codec: `decode` (R56), total on all words and rejecting by name, and `encode` (R57). -/

namespace Sys2Proof

/-- R50: an immutable descriptor of a bit range of a word. A range that breaks `0 ≤ from_bit ≤ to_bit ≤ 31`
is not constructible. -/
structure BitField where
  /-- The low-order bit of the range. -/
  fromBit : Nat
  /-- The high-order bit of the range, included. -/
  toBit : Nat
  /-- R50: the range is not empty. -/
  ordered : fromBit ≤ toBit
  /-- R50: the range lies in a 32-bit word. -/
  bounded : toBit ≤ 31
  deriving DecidableEq, Repr

/-- R50: the number of bits of the field, 1 to 32. -/
def BitField.width (f : BitField) : Nat := f.toBit - f.fromBit + 1

/-- R50: ones in the field, zeros elsewhere. -/
def BitField.mask (f : BitField) : Word := BitVec.ofNat 32 ((2 ^ f.width - 1) * 2 ^ f.fromBit)

/-- R50: zeros in the field, ones elsewhere. -/
def BitField.inverseMask (f : BitField) : Word := f.mask ^^^ 0xFFFFFFFF#32

/-- R51: the low-order `width` bits of `value`, negative values included, replace the field's bits. -/
def BitField.insert (f : BitField) (value : Int) (word : Word) : Word :=
  (word &&& f.inverseMask) ||| (wrap32 (value * 2 ^ f.fromBit) &&& f.mask)

/-- R52: the field's bits in the low-order position, unsigned. -/
def BitField.extract (f : BitField) (word : Word) : Nat := (word &&& f.mask).toNat / 2 ^ f.fromBit

/-- R53: the signed reading of a field value of `width` bits. -/
def signedValue (width : Nat) (v : Nat) : Int :=
  if 2 ^ (width - 1) ≤ v then (v : Int) - 2 ^ width else v

/-- R53: `sext_32(v, n)`, the sign extension of an `n`-bit value to a word. -/
def sext32 (v n : Nat) : Word := wrap32 (signedValue n v)

/-- R53, R54: signed extraction; a field of width below 2 is refused. -/
def BitField.extractSigned (f : BitField) (word : Word) : Option Int :=
  if f.width < 2 then none else some (signedValue f.width (f.extract word))

/-- R55: bits [31:26]. -/
def opcodeField : BitField := ⟨26, 31, by decide, by decide⟩
/-- R55: bits [25:22]. -/
def predicateField : BitField := ⟨22, 25, by decide, by decide⟩
/-- R55: bits [21:18]. -/
def targetField : BitField := ⟨18, 21, by decide, by decide⟩
/-- R55: bits [17:14]. -/
def src1Field : BitField := ⟨14, 17, by decide, by decide⟩
/-- R55: bits [13:10]. -/
def src2Field : BitField := ⟨10, 13, by decide, by decide⟩
/-- R55: bits [9:0], the one signed field. -/
def offsetField : BitField := ⟨0, 9, by decide, by decide⟩

/-- R58: the number of each opcode. -/
def Opcode.number : Opcode → Nat
  | .halt => 0
  | .load => 1
  | .store => 2
  | .add => 3
  | .sub => 5
  | .mul => 6
  | .div => 7
  | .and => 8
  | .or => 9

/-- R58: the opcode of each number; R62: 4 and 10 to 63 have none. -/
def opcodeOfNumber : Nat → Option Opcode
  | 0 => some .halt
  | 1 => some .load
  | 2 => some .store
  | 3 => some .add
  | 5 => some .sub
  | 6 => some .mul
  | 7 => some .div
  | 8 => some .and
  | 9 => some .or
  | _ => none

/-- Why a word is no instruction (R56): the only reason is its opcode field. -/
inductive DecodeError where
  /-- R62: the opcode field holds a number outside the closed set. -/
  | unknownOpcode (number : Nat)
  deriving DecidableEq, Repr

/-- R56, R60: the fields of a word other than the opcode, the offset by signed extraction (rule R53; its
field is 10 bits wide, so R54 never refuses it). -/
def decodeFields (w : Word) : Fields :=
  { pred := BitVec.ofNat 4 (predicateField.extract w)
    target := Fin.ofNat 16 (targetField.extract w)
    src1 := Fin.ofNat 16 (src1Field.extract w)
    src2 := Fin.ofNat 16 (src2Field.extract w)
    offset := signedValue offsetField.width (offsetField.extract w) }

/-- R56: every word is an instruction or an unknown opcode; only the opcode is validated. -/
def decode (w : Word) : Except DecodeError Instr :=
  match opcodeOfNumber (opcodeField.extract w) with
  | some op => .ok (op.instr (decodeFields w))
  | none => .error (.unknownOpcode (opcodeField.extract w))

/-- R57: from an all-zero word, insert each field in turn. -/
def encode (i : Instr) : Word :=
  offsetField.insert i.fields.offset
    (src2Field.insert i.fields.src2.val
      (src1Field.insert i.fields.src1.val
        (targetField.insert i.fields.target.val
          (predicateField.insert i.fields.pred.toNat
            (opcodeField.insert i.opcode.number 0#32)))))

/-- The word of an instruction of the opcode table whose low `nbits` bits are `w` and whose other bits
are 0. The hardware stores an instruction as one word (R65). -/
def tableWord (nbits w : Nat) : Word := BitVec.ofNat 32 (w % 2 ^ nbits)

/-- What `decode` reads from such a word; `none` where it refuses. -/
def decodeTableWord (nbits w : Nat) : Option Instr :=
  match decode (tableWord nbits w) with
  | .ok i => some i
  | .error _ => none

end Sys2Proof
end

