-- ==== Sys2Proof/Machine/State.lean ====
section
/-! DEFINITION. The state of the machine as plain data (rules R10 to R23), the reasons for which the model
takes no step, and the state after reset (R23, R160). -/

namespace Sys2Proof.Machine

/-- R140: the three fatal conditions the hardware raises. -/
inductive FaultCause where
  /-- Code 1: the opcode field of the fetched word is 4 or 10 to 63. -/
  | unknownOpcode
  /-- Code 2: an executed DIV whose right operand is 0. -/
  | divisionByZero
  /-- Code 3: an access to an address that cannot take it. -/
  | memoryFault
  deriving DecidableEq, Repr

/-- R141: the field `kind` of the fault record. -/
inductive AccessKind where
  /-- Code 0: an instruction fetch. R141 gives the two other causes code 0 as well. -/
  | fetch
  /-- Code 1. -/
  | load
  /-- Code 2. -/
  | store
  deriving DecidableEq, Repr

/-- R141: the fault record, what the hardware surfaces to the host. -/
structure FaultRecord where
  cause : FaultCause
  /-- `fetch` (code 0) unless the cause is a MemoryFault of a load or a store. -/
  kind : AccessKind
  /-- The address of the faulting instruction, or for a MemoryFault the address that could not be accessed. -/
  addr : Word
  /-- The instruction word, or 0 where the fetch itself failed. -/
  info : Word
  deriving DecidableEq, Repr

/-- R30: the storage words, a list of (address, word) pairs. A word is the smallest thing with an address
(R30, R32), so the cell is a word. The canonical form is `Memory.wf` of Machine/Memory.lean. -/
abbrev Memory := List (Nat × Word)

/-- R10 to R22: every piece of state the spec gives the machine, with the parameters of R5 beside it. -/
structure State where
  /-- R5, R24: the parameters of this machine; nothing changes them. -/
  config : Config
  /-- R10: `r1` to `r14`; `r<k>` is at index `k - 1`. R11: `r0` has no storage. -/
  general : Vector Word 14
  /-- R12, R13: `r15`, the program counter, a word address. -/
  pc : Word
  /-- R15: the condition flags, M bit 0, Z bit 1, P bit 2, V bit 3. -/
  flags : Flags
  /-- R18: the halted bit. -/
  halted : Bool
  /-- R19: the fault record, or `none`. -/
  fault : Option FaultRecord
  /-- R21: the storage words. -/
  mem : Memory
  /-- R21, R40: the console words supplied and not yet taken, oldest first. -/
  inStream : List Word
  /-- R21, R41: the console words written so far, oldest first. -/
  outStream : List Word
  deriving DecidableEq, Repr

/-- Why `step` answers no next state. These are the states in which the spec says that the machine takes no
step; the fatal conditions of R140 are not here, since entering the Faulted state is a next state (R144). -/
inductive Fault where
  /-- Raised by `step`: the machine is Halted (R80), the normal end of a run. Safe: no state changes. -/
  | halted
  /-- Raised by `step`: the machine is Faulted (R80, R148). Safe: no state changes. -/
  | faulted
  /-- Raised by LOAD: it reads the console and no word has been supplied, so the core waits (R40: "no step
  (stuck), not a value"). Safe: no state changes, and the same step succeeds once the host supplies a word. -/
  | consoleInputEmpty
  deriving DecidableEq, Repr

/-- Why the model gives an instruction no meaning. -/
inductive Refusal where
  /-- An arm of `exec` without a meaning; raised by no arm, since every instruction has one. Safe. -/
  | notModelled (mnemonic : String)
  deriving DecidableEq, Repr

/-- R23: the machine right after reset. The host's own inputs, the memory image and the console input, are
empty: nothing has been loaded and nothing supplied (log entries 3 and 4). -/
def State.reset : State :=
  { config := Config.standard
    general := Vector.replicate 14 0#32
    pc := Config.resetPc
    flags := Config.resetFlags
    halted := true
    fault := none
    mem := []
    inStream := []
    outStream := [] }

end Sys2Proof.Machine
end

