-- ==== Sys2Proof/Machine/Memory.lean ====
section
/-! DEFINITION. Storage: the canonical form of `Memory`, reading and writing one storage word (rules R30,
R21). Which addresses an access may use is decided in Machine/Ops.lean. -/

namespace Sys2Proof.Machine

/-- R165: what a word the host did not load and no store wrote holds. -/
def Memory.unlisted : Word := 0#32

/-- The canonical form: addresses strictly rising, no entry equal to what an unlisted address reads as. -/
abbrev Memory.wf (m : Memory) : Prop :=
  m.Pairwise (fun c d => c.1 < d.1) ∧ ∀ c ∈ m, c.2 ≠ Memory.unlisted

/-- `M[a]` (R30). -/
def Memory.read : Memory → Nat → Word
  | [], _ => Memory.unlisted
  | (b, w) :: m, a => if a = b then w else Memory.read m a

/-- The cells of a memory whose word at `a` is `v` and whose other words are those of `rest`, all of which
lie above `a`. -/
def Memory.place (a : Nat) (v : Word) (rest : Memory) : Memory :=
  if v = Memory.unlisted then rest else (a, v) :: rest

/-- `M[a] <- v`, keeping the canonical form. -/
def Memory.write : Memory → Nat → Word → Memory
  | [], a, v => Memory.place a v []
  | (b, w) :: m, a, v =>
    if a < b then Memory.place a v ((b, w) :: m)
    else if a = b then Memory.place a v m
    else (b, w) :: Memory.write m a v

end Sys2Proof.Machine
end

