-- ==== Sys2Proof/Machine/Ops.lean ====
section
/-! DEFINITION. The named operations over the state: field updates, registers (rules R10 to R14), the access
primitives `Fetch`, `MemRead`, `MemWrite`, `ConsoleIn`, `ConsoleOut` (R31, R35 to R41), the PC advance (R13)
and fault entry (R144). There is no return from a fault (R148): the Faulted state is left by the host's reset
alone, in Machine/HostMoves.lean. -/

namespace Sys2Proof.Machine

/-! ### Field updates -/

def State.withGeneral (s : State) (x : Vector Word 14) : State := { s with general := x }
def State.withPc (s : State) (x : Word) : State := { s with pc := x }
def State.withFlags (s : State) (x : Flags) : State := { s with flags := x }
def State.withHalted (s : State) (x : Bool) : State := { s with halted := x }
def State.withFault (s : State) (x : Option FaultRecord) : State := { s with fault := x }
def State.withMem (s : State) (x : Memory) : State := { s with mem := x }
def State.withInStream (s : State) (x : List Word) : State := { s with inStream := x }
def State.withOutStream (s : State) (x : List Word) : State := { s with outStream := x }

/-! ### Registers -/

/-- R11, R12: a read of `x[r]`; register 0 is 0, register 15 is the program counter. -/
def State.readReg (s : State) (r : RegNum) : Word :=
  if h0 : r.val = 0 then 0#32
  else if h15 : r.val = 15 then s.pc
  else s.general[r.val - 1]

/-- R11, R12: a write `x[r] <- v`; to register 0 it is discarded, to register 15 it is a jump. -/
def State.writeReg (s : State) (r : RegNum) (v : Word) : State :=
  if h0 : r.val = 0 then s
  else if h15 : r.val = 15 then s.withPc v
  else s.withGeneral (s.general.set (r.val - 1) v)

/-- R13, R85, R89: `x[15] <- wrap32(a + 1)`. -/
def State.advancePc (s : State) : State := s.withPc (s.pc + 1#32)

/-! ### Taking a fault -/

/-- R144: `raise`, applied to the state the step began in: only `fault` is written. -/
def State.raise (s : State) (r : FaultRecord) : State := s.withFault (some r)

/-- R142: UnknownOpcode of the fetched word `w`. -/
def State.raiseUnknownOpcode (s : State) (w : Word) : State :=
  s.raise { cause := .unknownOpcode, kind := .fetch, addr := s.pc, info := w }

/-- R143: DivisionByZero of the instruction `i`; its word is `encode i` (R59). -/
def State.raiseDivisionByZero (s : State) (i : Instr) : State :=
  s.raise { cause := .divisionByZero, kind := .fetch, addr := s.pc, info := encode i }

/-- R35, R141: MemoryFault of the fetch; there is no instruction word. -/
def State.raiseFetchFault (s : State) : State :=
  s.raise { cause := .memoryFault, kind := .fetch, addr := s.pc, info := 0#32 }

/-- R141, R145: MemoryFault of a load or store at the effective address `ea` of the instruction `i`. -/
def State.raiseDataFault (s : State) (kind : AccessKind) (ea : Word) (i : Instr) : State :=
  s.raise { cause := .memoryFault, kind := kind, addr := ea, info := encode i }

/-! ### Memory and console access -/

/-- R31: an address in 0 to N-1, the word read as signed. -/
abbrev InRange (c : Config) (a : Word) : Prop := 0 ≤ a.toInt ∧ a.toInt < c.memWords

/-- R35: `Fetch(a)`; `none` is MemoryFault(fetch). It never takes a console word. -/
def State.fetch (s : State) (a : Word) : Option Word :=
  if ¬ InRange s.config a then none
  else if a.toNat = s.config.ioIn ∨ a.toNat = s.config.ioOut then none
  else some (s.mem.read a.toNat)

/-- What a data access comes to: it is done, it raises MemoryFault, or it waits for the console. -/
inductive Access (α : Type) where
  | done (x : α)
  | memoryFault (kind : AccessKind)
  | waiting
  deriving DecidableEq, Repr

/-- Use the value of a finished access. -/
def Access.map {α β : Type} (g : α → β) : Access α → Access β
  | .done x => .done (g x)
  | .memoryFault k => .memoryFault k
  | .waiting => .waiting

/-- R40: `ConsoleIn()` takes the first word of the input stream, and waits while there is none. -/
def State.consoleIn (s : State) : Access (Word × State) :=
  match s.inStream with
  | [] => .waiting
  | v :: rest => .done (v, s.withInStream rest)

/-- R41: `ConsoleOut(v)` appends to the output stream and never blocks. -/
def State.consoleOut (s : State) (v : Word) : State := s.withOutStream (s.outStream ++ [v])

/-- R36: `MemRead(addr)`. -/
def State.memRead (s : State) (addr : Word) : Access (Word × State) :=
  if addr.toNat = s.config.ioIn then s.consoleIn
  else if addr.toNat = s.config.ioOut then .memoryFault .load
  else if ¬ InRange s.config addr then .memoryFault .load
  else .done (s.mem.read addr.toNat, s)

/-- R37: `MemWrite(addr, v)`. -/
def State.memWrite (s : State) (addr v : Word) : Access State :=
  if addr.toNat = s.config.ioOut then .done (s.consoleOut v)
  else if addr.toNat = s.config.ioIn then .memoryFault .store
  else if ¬ InRange s.config addr then .memoryFault .store
  else .done (s.withMem (s.mem.write addr.toNat v))

end Sys2Proof.Machine
end

