-- ==== Sys2Proof/Machine/Operands.lean ====
section
/-! DEFINITION. The operand forms. There is one (rules R60, R84): a left register, and the sum of a right
register and the signed offset; LOAD and STORE add the two for their one addressing mode (R122). -/

namespace Sys2Proof.Machine

/-- R84: `left = x[s1]`, read before the PC advance, so r15 reads the instruction's own address. -/
def leftOperand (f : Fields) (s : State) : Word := s.readReg f.src1

/-- R84: `right = wrap32(x[s2] + off)`, read before the PC advance; the sum wraps and sets no flag. -/
def rightOperand (f : Fields) (s : State) : Word := wrap32 ((s.readReg f.src2).toInt + f.offset)

/-- R122: the effective address of LOAD and STORE, the ALU result of R108. -/
def effectiveAddress (f : Fields) (s : State) : Word :=
  wrap32 ((leftOperand f s).toInt + (rightOperand f s).toInt)

end Sys2Proof.Machine
end

