-- ==== Sys2Proof/Machine/Execute.lean ====
section
/-! DEFINITION. What every instruction has in common (rule R80 from the predicate test on): the test, the
operand reads, the PC advance, the ALU call, the write-back, the flags, and the undoing of a step that
faults (R91). An instruction's own part is its write-back (R87). -/

namespace Sys2Proof.Machine

/-- R89: a skipped instruction advances the program counter and does nothing else. -/
def State.skip (s : State) : State := s.advancePc

/-- R80, R91: a finished write-back gets its flags (R88); one that faults leaves the state the step began in,
with the fault recorded; one that waits for the console is no step. -/
def finish (i : Instr) (s : State) (ea : Word) (newFlags : Flags) :
    Access State → Host.Outcome State Fault Refusal
  | .done s' => .next (s'.withFlags newFlags)
  | .memoryFault kind => .next (s.raiseDataFault kind ea i)
  | .waiting => .fault .consoleInputEmpty

/-- R83 to R88: the instruction `i`, whose write-back takes the ALU result and the state after the advance. -/
def execute (i : Instr) (writeBack : Word → State → Access State) (s : State) :
    Host.Outcome State Fault Refusal :=
  if Executes i.fields.pred s.flags then
    match alu i.opcode (leftOperand i.fields s) (rightOperand i.fields s) with
    | none => .next (s.raiseDivisionByZero i)
    | some (result, newFlags) => finish i s result newFlags (writeBack result s.advancePc)
  else .next s.skip

/-- R87: the six ALU instructions write the result to the target register. -/
def writeBackResult (f : Fields) (result : Word) (s : State) : Access State :=
  .done (s.writeReg f.target result)

end Sys2Proof.Machine
end

