-- ==== Sys2Proof/Machine/Arithmetic.lean ====
section
/-! DEFINITION. ADD, SUB, MUL, DIV (rules R102 to R105): the exact results are in Machine/Alu.lean. -/

namespace Sys2Proof.Machine

/-- R102: `x[t] <- wrap32(left + right)`. -/
def execAdd (f : Fields) (s : State) : Host.Outcome State Fault Refusal :=
  execute (.add f) (writeBackResult f) s

/-- R103: `x[t] <- wrap32(left - right)`. -/
def execSub (f : Fields) (s : State) : Host.Outcome State Fault Refusal :=
  execute (.sub f) (writeBackResult f) s

/-- R104: `x[t] <- wrap32(left * right)`. -/
def execMul (f : Fields) (s : State) : Host.Outcome State Fault Refusal :=
  execute (.mul f) (writeBackResult f) s

/-- R105: `x[t] <- wrap32(floor(left / right))`, or DivisionByZero. -/
def execDiv (f : Fields) (s : State) : Host.Outcome State Fault Refusal :=
  execute (.div f) (writeBackResult f) s

end Sys2Proof.Machine
end

