-- ==== Sys2Proof/Machine/Control.lean ====
section
/-! DEFINITION. HALT (rules R130, R136). Jumps are the other instructions with target r15 (R131). -/

namespace Sys2Proof.Machine

/-- R130: HALT sets `halted` and writes no register but the PC advance. -/
def writeBackHalt (_result : Word) (s : State) : Access State := .done (s.withHalted true)

/-- R130: `halted <- 1`, with the flags of the ALU's result 0. -/
def execHalt (f : Fields) (s : State) : Host.Outcome State Fault Refusal :=
  execute (.halt f) writeBackHalt s

end Sys2Proof.Machine
end

