-- ==== Sys2Proof/Machine/LoadStore.lean ====
section
/-! DEFINITION. LOAD and STORE (rules R120 to R125). -/

namespace Sys2Proof.Machine

/-- R120: the word read, console read included, goes to the target register; a target of r0 discards it. -/
def writeBackLoad (f : Fields) (ea : Word) (s : State) : Access State :=
  (s.memRead ea).map fun (v, s') => s'.writeReg f.target v

/-- R121: the data register is read after the PC advance, so r15 stores the next address. -/
def writeBackStore (f : Fields) (ea : Word) (s : State) : Access State :=
  s.memWrite ea (s.readReg f.target)

/-- R120: `x[t] <- MemRead(EA)`. -/
def execLoad (f : Fields) (s : State) : Host.Outcome State Fault Refusal :=
  execute (.load f) (writeBackLoad f) s

/-- R121: `MemWrite(EA, x[t])`. -/
def execStore (f : Fields) (s : State) : Host.Outcome State Fault Refusal :=
  execute (.store f) (writeBackStore f) s

end Sys2Proof.Machine
end

