-- ==== Sys2Proof/Machine/Logic.lean ====
section
/-! DEFINITION. AND and OR (rules R106, R107). -/

namespace Sys2Proof.Machine

/-- R106: `x[t] <- left & right`. -/
def execAnd (f : Fields) (s : State) : Host.Outcome State Fault Refusal :=
  execute (.and f) (writeBackResult f) s

/-- R107: `x[t] <- left | right`. -/
def execOr (f : Fields) (s : State) : Host.Outcome State Fault Refusal :=
  execute (.or f) (writeBackResult f) s

end Sys2Proof.Machine
end

