-- ==== Sys2Proof/Machine/Step.lean ====
section
/-! DEFINITION. One step (rule R80): the run state, the fetch, the decoding, the instruction. -/

namespace Sys2Proof.Machine

/-- R80: a Running machine fetches, decodes and runs one instruction; R146: the first fault met is the one
taken. A Halted or Faulted machine takes no step. -/
def step (s : State) : Host.Outcome State Fault Refusal :=
  if s.fault ≠ none then .fault .faulted
  else if s.halted then .fault .halted
  else
    match s.fetch s.pc with
    | none => .next s.raiseFetchFault
    | some w =>
      match decode w with
      | .error _ => .next (s.raiseUnknownOpcode w)
      | .ok i => exec i s

/-- The state in which the next step fetches and runs the word `tableWord nbits w`: the word at the program
counter and the machine Running, which stands for the host's load and start (R163, R165; log entry 5). -/
def State.withFetchWord (s : State) (nbits w : Nat) : State :=
  { s with mem := s.mem.write s.pc.toNat (tableWord nbits w), halted := false, fault := none }

end Sys2Proof.Machine
end

