-- ==== Sys2Proof/Machine/HostMoves.lean ====
section
/-! DEFINITION. What the host may do to the machine (rules R160 to R167) and what it sees of a fault (R140,
R141, R170). A move that the host must not make is no move of the model (log entry 6). -/

namespace Sys2Proof.Machine

/-- R160: `reset`, in any state: the core state at its reset values; memory and the console input, which are
the host's, stay, and so do the parameters. -/
def State.hostReset (s : State) : State :=
  { State.reset with config := s.config, mem := s.mem, inStream := s.inStream }

/-- R163: `start(a)`, taken when Halted; R161: a Faulted or a Running machine does not change. -/
def State.start (s : State) (a : Word) : State :=
  if s.fault = none ∧ s.halted = true then (s.withPc a).withHalted false else s

/-- R167: the host writes storage only while the machine is Halted or Faulted, and only the words that
exist (R21); no other write is a move. -/
def State.hostLoad (s : State) (a : Nat) (v : Word) : Option State :=
  if (s.fault ≠ none ∨ s.halted = true) ∧ a < s.config.memWords then some (s.withMem (s.mem.write a v))
  else none

/-- R165: the words of an image go to consecutive addresses. -/
def State.hostLoadImage (s : State) (a : Nat) : List Word → Option State
  | [] => some s
  | v :: vs => (s.hostLoad a v).bind fun s' => s'.hostLoadImage (a + 1) vs

/-- R167: the host appends console input words at any time. -/
def State.supply (s : State) (vs : List Word) : State := s.withInStream (s.inStream ++ vs)

/-- R167: the host reads storage while the machine is Halted or Faulted. -/
def State.hostRead (s : State) (a : Nat) : Option Word :=
  if (s.fault ≠ none ∨ s.halted = true) ∧ a < s.config.memWords then some (s.mem.read a) else none

/-- R140: the cause code the host sees. -/
def FaultCause.code : FaultCause → BitVec 2
  | .unknownOpcode => 1#2
  | .divisionByZero => 2#2
  | .memoryFault => 3#2

/-- R141: the code of the field `kind`. -/
def AccessKind.code : AccessKind → BitVec 2
  | .fetch => 0#2
  | .load => 1#2
  | .store => 2#2

/-- R92: the run loop, at most `n` steps of it; it ends in the state in which no step is taken. -/
def runLoop : Nat → State → State
  | 0, s => s
  | n + 1, s =>
    match step s with
    | .next t => runLoop n t
    | _ => s

/-- R163, R92: `run(start_address)`, at most `n` steps of it. -/
def State.run (s : State) (startAddress : Word) (n : Nat) : State := runLoop n (s.start startAddress)

end Sys2Proof.Machine
end

