-- ==== Sys2Proof/Machine/Idioms.lean ====
section
/-! DEFINITION. The instructions behind the assembler's symbolic forms (rule R74), data words (R73), predicate
suffixes (R72) and idioms (R76). The assembler itself is outside the hardware (R4); none of these is an
instruction of its own. -/

namespace Sys2Proof.Machine

/-- R74: the offset a symbolic form gets, `rel = address(label) - a`; `none` where it does not fit the field
(D24: such a line cannot be assembled). -/
def relativeOffset (label current : Nat) : Option Int :=
  let rel := (label : Int) - current
  if -512 ≤ rel ∧ rel ≤ 511 then some rel else none

/-- R74: `OP target, label` becomes `OP target,r0,r15[rel]`. -/
def pcRelative (pred : Predicate) (target : RegNum) (rel : Int) : Fields :=
  { pred := pred, target := target, src1 := 0, src2 := 15, offset := rel }

/-- R74: `LOAD target, label` on the line of address `current`. -/
def symbolicLoad (pred : Predicate) (target : RegNum) (label current : Nat) : Option Instr :=
  (relativeOffset label current).map fun rel => .load (pcRelative pred target rel)

/-- R74: `STORE target, label`. -/
def symbolicStore (pred : Predicate) (target : RegNum) (label current : Nat) : Option Instr :=
  (relativeOffset label current).map fun rel => .store (pcRelative pred target rel)

/-- R74: `JUMP label` is an ADD into r15. -/
def symbolicJump (pred : Predicate) (label current : Nat) : Option Instr :=
  (relativeOffset label current).map fun rel => .add (pcRelative pred 15 rel)

/-- R73: the word of `DATA value`; `none` outside -2^31 to 2^32 - 1. -/
def dataWord (value : Int) : Option Word :=
  if -2 ^ 31 ≤ value ∧ value < 2 ^ 32 then some (wrap32 value) else none

/-- R72: the letters of a predicate suffix. -/
inductive PredLetter where
  | M
  | Z
  | P
  | V
  deriving DecidableEq, Repr

/-- R72, R61: the flag bit a letter names. -/
def PredLetter.flag : PredLetter → Flags
  | .M => flagM
  | .Z => flagZ
  | .P => flagP
  | .V => flagV

/-- R72: the predicate of a suffix; no suffix means ALWAYS. -/
def suffixPredicate : List PredLetter → Predicate
  | [] => always
  | letters => letters.foldl (fun p l => p ||| l.flag) never

/-- R76: compare `ra` with `rb`. -/
def compareRegs (ra rb : RegNum) : Instr :=
  .sub { pred := always, target := 0, src1 := ra, src2 := rb, offset := 0 }

/-- R76: compare `ra` with a constant. -/
def compareConst (ra : RegNum) (k : Int) : Instr :=
  .sub { pred := always, target := 0, src1 := ra, src2 := 0, offset := k }

/-- R76: move. -/
def moveReg (rt ra : RegNum) : Instr :=
  .add { pred := always, target := rt, src1 := ra, src2 := 0, offset := 0 }

/-- R76: load a constant. -/
def loadConst (rt : RegNum) (k : Int) : Instr :=
  .add { pred := always, target := rt, src1 := 0, src2 := 0, offset := k }

/-- R76: no-operation; it sets the flags to Z. -/
def noOperation : Instr :=
  .add { pred := always, target := 0, src1 := 0, src2 := 0, offset := 0 }

/-- R76: the first half of a call, which leaves the address after the jump in `rt`. -/
def saveReturnAddress (rt : RegNum) : Instr :=
  .add { pred := always, target := rt, src1 := 0, src2 := 15, offset := 2 }

/-- R76: return to the address in `ra`. -/
def returnTo (ra : RegNum) : Instr :=
  .add { pred := always, target := 15, src1 := ra, src2 := 0, offset := 0 }

/-- R110: NOT `rx`, computed as `0 - (x + 1)`. -/
def complement (rt rx : RegNum) : Instr :=
  .sub { pred := always, target := rt, src1 := 0, src2 := rx, offset := 1 }

end Sys2Proof.Machine
end

