-- ==== Sys2Proof/Safety.lean ====
section
/-! DEFINITION. The terms in which claims are stated: the run states (rule R161), what an effect leaves
(frames), what a true fault record says (R141), the invariant of the machine, and the states it can reach
with a host that keeps to its moves (R167). -/

namespace Sys2Proof.Machine

/-! ### Run states -/

/-- R161: Running. -/
abbrev Running (s : State) : Prop := s.fault = none ∧ s.halted = false
/-- R161: Halted; R93: a run that has ended normally. -/
abbrev Halted (s : State) : Prop := s.fault = none ∧ s.halted = true
/-- R161: Faulted; R93: a run that has ended abnormally. -/
abbrev Faulted (s : State) : Prop := s.fault ≠ none
/-- R40, R153: Running, with no step until the host supplies a console word. -/
def Waiting (s : State) : Prop := step s = .fault .consoleInputEmpty
/-- R148: a safe run from `s` is one that never faults, however long it is. -/
def SafeRun (s : State) : Prop := ∀ n, (runLoop n s).fault = none

/-! ### Addresses -/

/-- R38: the addresses of storage that the core can use, for fetch, load and store alike. -/
abbrev IsStorage (c : Config) (a : Word) : Prop :=
  InRange c a ∧ a.toNat ≠ c.ioIn ∧ a.toNat ≠ c.ioOut

/-! ### Effects and frames -/

/-- Every register after a write of `v` to `d` by an instruction at `s.pc`: r0 stays 0, `d` holds `v`, r15
holds the advanced program counter unless it is `d`, and every other register is as before. -/
def RegsAfterWrite (s t : State) (d : RegNum) (v : Word) : Prop :=
  ∀ r, t.readReg r =
    if r = 0 then 0#32 else if r = d then v else if r = 15 then s.pc + 1#32 else s.readReg r

/-- Every register after an instruction that writes none: r15 is advanced, every other is as before. -/
def RegsAfterAdvance (s t : State) : Prop :=
  ∀ r, t.readReg r = if r = 15 then s.pc + 1#32 else s.readReg r

/-- The parameters, the halted bit and the fault record are as before. -/
def KeepsRunState (s t : State) : Prop := t.config = s.config ∧ t.halted = s.halted ∧ t.fault = s.fault

/-- Every word of storage reads as before. -/
def KeepsStorage (s t : State) : Prop := ∀ a : Nat, t.mem.read a = s.mem.read a

/-- Both console streams are as before. -/
def KeepsConsole (s t : State) : Prop := t.inStream = s.inStream ∧ t.outStream = s.outStream

/-- The whole effect of an executed ALU instruction with target `d`, exact result `exact` and 32-bit result
`v`: one register, the program counter and the flags; nothing else. -/
def AluEffect (s t : State) (d : RegNum) (exact : Int) (v : Word) : Prop :=
  RegsAfterWrite s t d v ∧ t.flags = flagsOf exact v ∧ KeepsRunState s t ∧ KeepsStorage s t ∧ KeepsConsole s t

/-- The sum that makes an address (R108), before it wraps. -/
def exactAddressOf (f : Fields) (s : State) : Int :=
  (s.readReg f.src1).toInt + (wrap32 ((s.readReg f.src2).toInt + f.offset)).toInt

/-- R121: the word a STORE writes; r15 reads the advanced program counter. -/
def storeData (f : Fields) (s : State) : Word := if f.target = 15 then s.pc + 1#32 else s.readReg f.target

/-! ### Flags -/

/-- R17: the six values an executed instruction can leave in the flags. -/
def IsResultFlags (x : Flags) : Prop :=
  x = 0b0001#4 ∨ x = 0b0010#4 ∨ x = 0b0100#4 ∨ x = 0b1001#4 ∨ x = 0b1010#4 ∨ x = 0b1100#4

/-! ### Fault records -/

/-- R141: the record `r` tells the truth of a step that began in `s` and faulted. -/
def FaultRecordTrue (s : State) (r : FaultRecord) : Prop :=
  match r.cause, r.kind with
  | .unknownOpcode, .fetch =>
    r.addr = s.pc ∧ s.fetch s.pc = some r.info ∧ ∃ e, decode r.info = .error e
  | .divisionByZero, .fetch =>
    r.addr = s.pc ∧ s.fetch s.pc = some r.info ∧
      ∃ f, decode r.info = .ok (.div f) ∧ Executes f.pred s.flags ∧ rightOperand f s = 0#32
  | .memoryFault, .fetch => r.addr = s.pc ∧ r.info = 0#32 ∧ ¬ IsStorage s.config s.pc
  | .memoryFault, .load =>
    s.fetch s.pc = some r.info ∧
      ∃ f, decode r.info = .ok (.load f) ∧ Executes f.pred s.flags ∧ r.addr = effectiveAddress f s ∧
        r.addr.toNat ≠ s.config.ioIn ∧ ¬ IsStorage s.config r.addr
  | .memoryFault, .store =>
    s.fetch s.pc = some r.info ∧
      ∃ f, decode r.info = .ok (.store f) ∧ Executes f.pred s.flags ∧ r.addr = effectiveAddress f s ∧
        r.addr.toNat ≠ s.config.ioOut ∧ ¬ IsStorage s.config r.addr
  | _, _ => False

/-! ### The invariant, and the reachable states -/

/-- What holds of the machine in every state it can reach. -/
structure Inv (s : State) : Prop where
  /-- R5: the parameters meet their constraints. -/
  config : s.config.Valid
  /-- The memory has its canonical form. -/
  memory : s.mem.wf
  /-- R30: only words that exist are listed. -/
  listed : ∀ c ∈ s.mem, c.1 < s.config.memWords
  /-- R17: the flags are those of an ALU result, or the reset value. -/
  flags : IsResultFlags s.flags ∨ s.flags = always
  /-- R19: a Faulted machine is not Halted as well. -/
  apart : s.fault ≠ none → s.halted = false
  /-- R141: the kind is 0 unless the cause is MemoryFault, and a fetch fault names no instruction word. -/
  record : ∀ r, s.fault = some r →
    (r.cause ≠ .memoryFault → r.kind = .fetch) ∧ (r.cause = .memoryFault → r.kind = .fetch → r.info = 0#32)

/-- The machine with parameters `c` right after reset, nothing loaded and nothing supplied. -/
def State.resetWith (c : Config) : State := { State.reset with config := c }

/-- One thing that can happen to the machine: a step of its own, or a move of the host (R167). -/
inductive Move (s t : State) : Prop where
  | step (h : step s = .next t)
  | reset (h : t = s.hostReset)
  | start (a : Word) (h : t = s.start a)
  | load (a : Nat) (v : Word) (h : s.hostLoad a v = some t)
  | supply (vs : List Word) (h : t = s.supply vs)

/-- The states of a machine with valid parameters, from its reset on. -/
inductive Reachable : State → Prop where
  | reset (c : Config) (h : c.Valid) : Reachable (State.resetWith c)
  | move {s t : State} (hs : Reachable s) (h : Move s t) : Reachable t

end Sys2Proof.Machine
end

