-- ==== Sys2Proof/Certificates/Slice0/Obligations.lean ====
section
/-! DEFINITION. The statements for the provers, in the order of the spec: encoding, reset and the host, the
predicate and the flags, the instructions one by one, the step as a whole, faults, invariants. Every
statement is for all states and operands unless it says otherwise, and for all parameters of R5. -/

open Sys2Proof Sys2Proof.Machine

/-! ### The codecs -/

/-- R51: an insertion puts the low-order bits of the value, in two's complement, into the field and leaves
every other bit as it was. -/
def Obligations.InsertReplacesFieldBits : Prop :=
  ∀ (f : BitField) (v : Int) (w : Word) (k : Nat), k < 32 →
    (f.insert v w).getLsbD k =
      if f.fromBit ≤ k ∧ k ≤ f.toBit then (wrap32 v).getLsbD (k - f.fromBit) else w.getLsbD k

/-- R52: extraction reads the field's bits, in the low-order position and unsigned, and nothing else. -/
def Obligations.ExtractReadsFieldBits : Prop :=
  ∀ (f : BitField) (w : Word),
    f.extract w < 2 ^ f.width ∧
      ∀ k, (f.extract w).testBit k = (decide (k < f.width) && w.getLsbD (f.fromBit + k))

/-- S2 of the source's properties: a value that fits its field comes back, from any starting word. -/
def Obligations.ExtractAfterInsert : Prop :=
  ∀ (f : BitField) (v : Nat) (w : Word), v < 2 ^ f.width → f.extract (f.insert v w) = v

/-- R53, R54: signed extraction refuses a width below 2; otherwise the field value `x` is read as
`x - 2^width` when its top bit is set, and as a word it is the field with its top bit copied upwards. -/
def Obligations.SignedExtractionCopiesTopBit : Prop :=
  ∀ (f : BitField) (w : Word),
    (f.width < 2 → f.extractSigned w = none) ∧
    (2 ≤ f.width →
      ∃ x, f.extractSigned w = some x ∧
        x = (if w.getLsbD f.toBit then (f.extract w : Int) - 2 ^ f.width else f.extract w) ∧
        ∀ k, k < 32 →
          (wrap32 x).getLsbD k = if k < f.width then w.getLsbD (f.fromBit + k) else w.getLsbD f.toBit)

/-- R56, R60: what `decode` makes of a word, as arithmetic on its unsigned value; the error names the
opcode number, which is none of R58's. -/
def Obligations.DecodeReadsEveryField : Prop :=
  ∀ w : Word,
    match decode w with
    | .ok i =>
      i.opcode.number = w.toNat / 2 ^ 26 ∧ i.fields.pred.toNat = w.toNat / 2 ^ 22 % 16 ∧
      i.fields.target.val = w.toNat / 2 ^ 18 % 16 ∧ i.fields.src1.val = w.toNat / 2 ^ 14 % 16 ∧
      i.fields.src2.val = w.toNat / 2 ^ 10 % 16 ∧
      i.fields.offset =
        (if w.toNat % 1024 < 512 then ((w.toNat % 1024 : Nat) : Int) else ((w.toNat % 1024 : Nat) : Int) - 1024)
    | .error (.unknownOpcode n) => n = w.toNat / 2 ^ 26 ∧ (n = 4 ∨ 10 ≤ n)

/-- R57: the word of a valid instruction is the sum of its fields, each at its place. -/
def Obligations.EncodeIsSumOfFields : Prop :=
  ∀ i : Instr, i.WellFormed →
    ((encode i).toNat : Int) =
      i.opcode.number * 2 ^ 26 + i.fields.pred.toNat * 2 ^ 22 + i.fields.target.val * 2 ^ 18 +
        i.fields.src1.val * 2 ^ 14 + i.fields.src2.val * 2 ^ 10 + i.fields.offset % 1024

/-- R59: the two round-trip laws, for every valid instruction and for every word that decodes; what decodes
is a valid instruction (R57). -/
def Obligations.CodecRoundTrips : Prop :=
  (∀ i : Instr, i.WellFormed → decode (encode i) = .ok i) ∧
  ∀ (w : Word) (i : Instr), decode w = .ok i → encode i = w ∧ i.WellFormed

/-- Words of 95_test_vectors.md §2.2, one for each opcode shape and two illegal ones, decode as listed. -/
def Obligations.ListedWordsDecode : Prop :=
  decodeTableWord 32 0x03C00000 = some (.halt ⟨15#4, 0, 0, 0, 0⟩) ∧
  decodeTableWord 32 0x07C43E00 = some (.load ⟨15#4, 1, 0, 15, -512⟩) ∧
  decodeTableWord 32 0x0BC401FF = some (.store ⟨15#4, 1, 0, 0, 511⟩) ∧
  decodeTableWord 32 0x0D3C3FFE = some (.add ⟨4#4, 15, 0, 15, -2⟩) ∧
  decodeTableWord 32 0x17C0C00A = some (.sub ⟨15#4, 0, 3, 0, 10⟩) ∧
  decodeTableWord 32 0x27FFFFFF = some (.or ⟨15#4, 15, 15, 15, -1⟩) ∧
  decodeTableWord 32 0x10000000 = none ∧ decodeTableWord 32 0x28000000 = none

/-! ### Reset and the host -/

/-- R23: the values after reset; a reset changes neither storage nor the console input. Two clauses are the
model's choice: `State.reset` takes the default parameters of R5 (log entry 1), and a word of storage that the
host has not loaded reads 0 (log entry 3). -/
def Obligations.ResetStateValues : Prop :=
  (∀ r : RegNum, State.reset.readReg r = 0#32) ∧ State.reset.pc = 0#32 ∧ State.reset.flags = 0b1111#4 ∧
  State.reset.halted = true ∧ State.reset.fault = none ∧ State.reset.outStream = [] ∧
  State.reset.config = ⟨512, 510, 511⟩ ∧ (∀ a, State.reset.mem.read a = 0#32) ∧
  ∀ s : State, s.hostReset.mem = s.mem ∧ s.hostReset.inStream = s.inStream

/-- R160: the host's reset, in any state: the registers, the flags, the run state and the console output at
their reset values; storage and the console input as they were; no step until `start`. That `step` answers so
by the outcome named `halted` is the model's choice of form (log entry 7). -/
def Obligations.HostResetRestoresCore : Prop :=
  ∀ s : State,
    (∀ r : RegNum, s.hostReset.readReg r = 0#32) ∧ s.hostReset.flags = 0b1111#4 ∧ Halted s.hostReset ∧
    s.hostReset.outStream = [] ∧ s.hostReset.mem = s.mem ∧ s.hostReset.inStream = s.inStream ∧
    s.hostReset.config = s.config ∧ step s.hostReset = .fault .halted

/-- R163: `start(a)` on a Halted machine sets the program counter and clears halted, and keeps everything
else; R161: on a Faulted or a Running machine it does nothing. -/
def Obligations.StartSetsPcAndRuns : Prop :=
  ∀ (s : State) (a : Word),
    (Halted s → s.start a = { s with pc := a, halted := false }) ∧ (¬ Halted s → s.start a = s)

/-- R167: the host writes storage only while the machine is not Running, and then exactly the word it names.
R167 says only that the host must not write otherwise: that such a write, or one to a word that does not exist,
is no move (`none`) is the model's choice (log entry 6). -/
def Obligations.HostLoadsOnlyWhileStopped : Prop :=
  ∀ (s : State) (a : Nat) (v : Word), s.mem.wf →
    (Running s → s.hostLoad a v = none) ∧ (s.config.memWords ≤ a → s.hostLoad a v = none) ∧
    (¬ Running s → a < s.config.memWords →
      ∃ t, s.hostLoad a v = some t ∧ (∀ b, t.mem.read b = if b = a then v else s.mem.read b) ∧
        t = { s with mem := t.mem })

/-- R165: an image loaded at address `a` puts its word `k` at address `a + k`, and no other word changes. -/
def Obligations.ImageWordKAtAddressK : Prop :=
  ∀ (s t : State) (a : Nat) (vs : List Word), s.mem.wf → s.hostLoadImage a vs = some t →
    ∀ b, t.mem.read b = if a ≤ b ∧ b < a + vs.length then vs[b - a]?.getD 0#32 else s.mem.read b

/-! ### Registers, operands, addresses -/

/-- R11: register 0 reads 0 in every state, and a write to it changes nothing at all. -/
def Obligations.RegisterZeroIsHardWired : Prop :=
  ∀ (s : State) (v : Word), s.readReg 0 = 0#32 ∧ s.writeReg 0 v = s

/-- R31: with valid parameters an address is in range exactly when its unsigned value is below N; no word
with its sign bit set is in range. -/
def Obligations.InRangeSignedIsUnsigned : Prop :=
  ∀ (c : Config) (a : Word), c.Valid →
    (InRange c a ↔ a.toNat < c.memWords) ∧ (a.getLsbD 31 = true → ¬ InRange c a)

/-- R122: the effective address is the wrapped sum of the two registers and the offset. -/
def Obligations.EffectiveAddressIsSum : Prop :=
  ∀ (f : Fields) (s : State),
    effectiveAddress f s = wrap32 ((s.readReg f.src1).toInt + (s.readReg f.src2).toInt + f.offset)

/-! ### The predicate and the flags -/

/-- R83: an instruction is executed when some flag is set in both its predicate and the flags, or when its
predicate is 0b1111. -/
def Obligations.PredicateTest : Prop :=
  ∀ (p : Predicate) (x : Flags),
    Executes p x ↔ (∃ k, k < 4 ∧ p.getLsbD k = true ∧ x.getLsbD k = true) ∨ p = 0b1111#4

/-- R101: each flag bit of a result: M, Z, P by the sign of the 32-bit result, V when the exact result does
not fit. -/
def Obligations.FlagBitsOfResult : Prop :=
  ∀ exact : Int,
    ((flagsOf exact (wrap32 exact)).getLsbD 0 = decide ((wrap32 exact).toInt < 0)) ∧
    ((flagsOf exact (wrap32 exact)).getLsbD 1 = decide ((wrap32 exact).toInt = 0)) ∧
    ((flagsOf exact (wrap32 exact)).getLsbD 2 = decide (0 < (wrap32 exact).toInt)) ∧
    ((flagsOf exact (wrap32 exact)).getLsbD 3 = decide (exact < -2 ^ 31 ∨ 2 ^ 31 ≤ exact))

/-- R102: a sum overflows when both operands have the same sign and the result has the other. R103: a
difference overflows when the operands have different signs and the result has the sign of the right one. -/
def Obligations.OverflowBySigns : Prop :=
  ∀ l r : Word,
    ((flagsOf (l.toInt + r.toInt) (wrap32 (l.toInt + r.toInt))).getLsbD 3 =
      decide (l.getLsbD 31 = r.getLsbD 31 ∧ (wrap32 (l.toInt + r.toInt)).getLsbD 31 ≠ l.getLsbD 31)) ∧
    ((flagsOf (l.toInt - r.toInt) (wrap32 (l.toInt - r.toInt))).getLsbD 3 =
      decide (l.getLsbD 31 ≠ r.getLsbD 31 ∧ (wrap32 (l.toInt - r.toInt)).getLsbD 31 = r.getLsbD 31))

/-- R17, which the spec infers from R101: the ALU leaves exactly one of M, Z, P, with V or not, whatever the
opcode and the operands; AND, OR and HALT never leave V. -/
def Obligations.AluFlagsAreOneOfSix : Prop :=
  ∀ (op : Opcode) (l r result : Word) (x : Flags), alu op l r = some (result, x) →
    IsResultFlags x ∧ (op = .and ∨ op = .or ∨ op = .halt → x.getLsbD 3 = false)

/-! ### What every instruction has in common -/

/-- R89: a skipped instruction, of any opcode, advances the program counter and does nothing else. -/
def Obligations.SkippedInstructionOnlyAdvances : Prop :=
  ∀ (i : Instr) (s : State), ¬ Executes i.fields.pred s.flags →
    exec i s = .next { s with pc := s.pc + 1#32 }

/-- R88: every executed instruction that completes leaves the flags its ALU call returned, all four bits. -/
def Obligations.ExecutedInstructionWritesFlags : Prop :=
  ∀ (i : Instr) (s t : State), s.fault = none → Executes i.fields.pred s.flags → exec i s = .next t →
    t.fault = none →
    ∃ result, alu i.opcode (s.readReg i.fields.src1)
      (wrap32 ((s.readReg i.fields.src2).toInt + i.fields.offset)) = some (result, t.flags)

/-- R14: no instruction changes a register that is neither its target nor r15; STORE and HALT change none but
r15. -/
def Obligations.OnlyTargetAndPcChange : Prop :=
  ∀ (i : Instr) (s t : State), exec i s = .next t →
    ∀ r : RegNum, r ≠ 15 →
      (r ≠ i.fields.target ∨ i.opcode = .store ∨ i.opcode = .halt) → t.readReg r = s.readReg r

/-! ### The ALU instructions -/

/-- R102: ADD completes on all operands: the wrapped sum goes to the target, with its flags, and nothing else
changes but the program counter; a target of r0 discards the sum, a target of r15 jumps to it. -/
def Obligations.AddCompletes : Prop :=
  ∀ (f : Fields) (s : State), Executes f.pred s.flags →
    let l := s.readReg f.src1
    let r := wrap32 ((s.readReg f.src2).toInt + f.offset)
    ∃ t, exec (.add f) s = .next t ∧
      AluEffect s t f.target (l.toInt + r.toInt) (wrap32 (l.toInt + r.toInt))

/-- R103: SUB completes on all operands: left minus right, as ADD. -/
def Obligations.SubCompletes : Prop :=
  ∀ (f : Fields) (s : State), Executes f.pred s.flags →
    let l := s.readReg f.src1
    let r := wrap32 ((s.readReg f.src2).toInt + f.offset)
    ∃ t, exec (.sub f) s = .next t ∧
      AluEffect s t f.target (l.toInt - r.toInt) (wrap32 (l.toInt - r.toInt))

/-- R104: MUL completes on all operands: the low 32 bits of the signed product, which are those of the
unsigned product as well. -/
def Obligations.MulCompletes : Prop :=
  ∀ (f : Fields) (s : State), Executes f.pred s.flags →
    let l := s.readReg f.src1
    let r := wrap32 ((s.readReg f.src2).toInt + f.offset)
    ∃ t v, exec (.mul f) s = .next t ∧ AluEffect s t f.target (l.toInt * r.toInt) v ∧
      v = wrap32 (l.toInt * r.toInt) ∧ v.toNat = l.toNat * r.toNat % 2 ^ 32

/-- R105: DIV completes on every non-zero divisor: the quotient is the greatest integer not above the exact
one, which the remainder's range says; it overflows on `INT_MIN / -1` alone. On a zero divisor, offset added,
it writes nothing but the fault record, whose word is written as the encoding of the instruction, the model's
choice (log entry 10; of an ill-formed instruction, which no word decodes to, it is no fetched word). -/
def Obligations.DivCompletes : Prop :=
  ∀ (f : Fields) (s : State), Executes f.pred s.flags →
    let l := s.readReg f.src1
    let r := wrap32 ((s.readReg f.src2).toInt + f.offset)
    (r = 0#32 →
      exec (.div f) s =
        .next { s with fault := some ⟨.divisionByZero, .fetch, s.pc, encode (.div f)⟩ }) ∧
    (r ≠ 0#32 →
      ∃ t q, exec (.div f) s = .next t ∧ AluEffect s t f.target q (wrap32 q) ∧
        (0 < r.toInt → 0 ≤ l.toInt - q * r.toInt ∧ l.toInt - q * r.toInt < r.toInt) ∧
        (r.toInt < 0 → r.toInt < l.toInt - q * r.toInt ∧ l.toInt - q * r.toInt ≤ 0) ∧
        (t.flags.getLsbD 3 = true ↔ l = intMin ∧ r = -1#32))

/-- R143: the step of a DIV whose predicate passes and whose divisor, offset added, is 0 records its address
and the word fetched, and writes nothing else; no other step, a skipped DIV included, records a
DivisionByZero. -/
def Obligations.DivByZeroFaults : Prop :=
  (∀ (s : State) (w : Word) (f : Fields), Running s → s.fetch s.pc = some w → decode w = .ok (.div f) →
    Executes f.pred s.flags → wrap32 ((s.readReg f.src2).toInt + f.offset) = 0#32 →
    step s = .next { s with fault := some ⟨.divisionByZero, .fetch, s.pc, w⟩ }) ∧
  ∀ (s t : State) (r : FaultRecord), step s = .next t → t.fault = some r → r.cause = .divisionByZero →
    ∃ f, s.fetch s.pc = some r.info ∧ decode r.info = .ok (.div f) ∧ Executes f.pred s.flags ∧
      wrap32 ((s.readReg f.src2).toInt + f.offset) = 0#32

/-- R106: AND completes on all operands: bit by bit, V clear. -/
def Obligations.AndCompletes : Prop :=
  ∀ (f : Fields) (s : State), Executes f.pred s.flags →
    let l := s.readReg f.src1
    let r := wrap32 ((s.readReg f.src2).toInt + f.offset)
    ∃ t v, exec (.and f) s = .next t ∧ AluEffect s t f.target v.toInt v ∧
      (∀ k, v.getLsbD k = (l.getLsbD k && r.getLsbD k)) ∧ t.flags.getLsbD 3 = false ∧
      (t.flags.getLsbD 0 = v.getLsbD 31)

/-- R107: OR completes on all operands: bit by bit, V clear, Z when both operands are 0. -/
def Obligations.OrCompletes : Prop :=
  ∀ (f : Fields) (s : State), Executes f.pred s.flags →
    let l := s.readReg f.src1
    let r := wrap32 ((s.readReg f.src2).toInt + f.offset)
    ∃ t v, exec (.or f) s = .next t ∧ AluEffect s t f.target v.toInt v ∧
      (∀ k, v.getLsbD k = (l.getLsbD k || r.getLsbD k)) ∧ t.flags.getLsbD 3 = false ∧
      (t.flags.getLsbD 0 = v.getLsbD 31) ∧ (t.flags.getLsbD 1 = true ↔ l = 0#32 ∧ r = 0#32)

/-- R76 and R103: the compare idiom writes no register; where the difference fits, it leaves M, Z or P alone as
the left register is below, equal to or above the right one. -/
def Obligations.CompareOrdersSignedValues : Prop :=
  ∀ (ra rb : RegNum) (s : State),
    ∃ t, exec (compareRegs ra rb) s = .next t ∧ RegsAfterAdvance s t ∧
      (-2 ^ 31 ≤ (s.readReg ra).toInt - (s.readReg rb).toInt →
        (s.readReg ra).toInt - (s.readReg rb).toInt < 2 ^ 31 →
        t.flags =
          if (s.readReg ra).toInt < (s.readReg rb).toInt then 0b0001#4
          else if (s.readReg ra).toInt = (s.readReg rb).toInt then 0b0010#4
          else 0b0100#4)

/-- R110, which the spec infers from R84 and R103: the complement idiom `SUB rt,r0,rx[1]` writes NOT x. -/
def Obligations.ComplementIdiom : Prop :=
  ∀ (rt rx : RegNum) (s : State),
    ∃ t, exec (complement rt rx) s = .next t ∧ RegsAfterWrite s t rt (~~~ (s.readReg rx))

/-! ### LOAD -/

/-- R120: a LOAD from storage completes: the word goes to the target, the flags are those of the address, and
nothing else changes but the program counter. -/
def Obligations.LoadFromStorageCompletes : Prop :=
  ∀ (f : Fields) (s : State), Executes f.pred s.flags → IsStorage s.config (effectiveAddress f s) →
    ∃ t, exec (.load f) s = .next t ∧
      RegsAfterWrite s t f.target (s.mem.read (effectiveAddress f s).toNat) ∧
      t.flags = flagsOf (exactAddressOf f s) (effectiveAddress f s) ∧
      KeepsRunState s t ∧ KeepsStorage s t ∧ KeepsConsole s t

/-- R40: a LOAD from the console input address takes the first word supplied, a target of r0 included (D27),
and touches no storage; its flags are those of the address (R108, R120); with no word supplied it waits, which
is no step. That the wait is answered by the outcome `consoleInputEmpty` is the model's choice of form (log
entry 8). -/
def Obligations.LoadFromConsoleTakesWordOrWaits : Prop :=
  ∀ (f : Fields) (s : State), Executes f.pred s.flags → (effectiveAddress f s).toNat = s.config.ioIn →
    (s.inStream = [] → exec (.load f) s = .fault .consoleInputEmpty) ∧
    ∀ (v : Word) (rest : List Word), s.inStream = v :: rest →
      ∃ t, exec (.load f) s = .next t ∧ RegsAfterWrite s t f.target v ∧
        t.flags = flagsOf (exactAddressOf f s) (effectiveAddress f s) ∧
        KeepsRunState s t ∧ KeepsStorage s t ∧ t.inStream = rest ∧ t.outStream = s.outStream

/-- R36: a LOAD from the console output address or from outside 0 to N-1 writes nothing but the fault record
of R141, whose word is written as the encoding of the instruction, the model's choice (log entry 10). -/
def Obligations.LoadOutsideStorageFaults : Prop :=
  ∀ (f : Fields) (s : State), s.config.Valid → Executes f.pred s.flags →
    ((effectiveAddress f s).toNat = s.config.ioOut ∨ ¬ InRange s.config (effectiveAddress f s)) →
    exec (.load f) s =
      .next { s with fault := some ⟨.memoryFault, .load, effectiveAddress f s, encode (.load f)⟩ }

/-! ### STORE -/

/-- R121: a STORE to storage completes: the data register, r15 read as the next address, goes to the word at
the effective address and to no other; no register changes but the program counter. -/
def Obligations.StoreToStorageCompletes : Prop :=
  ∀ (f : Fields) (s : State), s.mem.wf → Executes f.pred s.flags →
    IsStorage s.config (effectiveAddress f s) →
    ∃ t, exec (.store f) s = .next t ∧
      (∀ a : Nat, t.mem.read a =
        if a = (effectiveAddress f s).toNat then storeData f s else s.mem.read a) ∧
      t.flags = flagsOf (exactAddressOf f s) (effectiveAddress f s) ∧
      RegsAfterAdvance s t ∧ KeepsRunState s t ∧ KeepsConsole s t

/-- R41: a STORE to the console output address appends the data register's word to the output and touches no
storage. -/
def Obligations.StoreToConsoleAppends : Prop :=
  ∀ (f : Fields) (s : State), Executes f.pred s.flags → (effectiveAddress f s).toNat = s.config.ioOut →
    ∃ t, exec (.store f) s = .next t ∧ t.outStream = s.outStream ++ [storeData f s] ∧
      t.inStream = s.inStream ∧ t.flags = flagsOf (exactAddressOf f s) (effectiveAddress f s) ∧
      RegsAfterAdvance s t ∧ KeepsRunState s t ∧ KeepsStorage s t

/-- R37: a STORE to the console input address or outside 0 to N-1 writes nothing but the fault record of R141,
whose word is written as the encoding of the instruction, the model's choice (log entry 10). -/
def Obligations.StoreOutsideStorageFaults : Prop :=
  ∀ (f : Fields) (s : State), s.config.Valid → Executes f.pred s.flags →
    ((effectiveAddress f s).toNat = s.config.ioIn ∨ ¬ InRange s.config (effectiveAddress f s)) →
    exec (.store f) s =
      .next { s with fault := some ⟨.memoryFault, .store, effectiveAddress f s, encode (.store f)⟩ }

/-- R46, which the spec infers from R44: the word a STORE wrote is what a fetch from that address returns at
once. -/
def Obligations.FetchSeesLastStore : Prop :=
  ∀ (f : Fields) (s : State) (a : Word), s.mem.wf → Executes f.pred s.flags →
    IsStorage s.config (effectiveAddress f s) →
    ∃ t, exec (.store f) s = .next t ∧
      t.fetch a = if a = effectiveAddress f s then some (storeData f s) else s.fetch a

/-! ### HALT and jumps -/

/-- R130: HALT completes whatever its other fields hold: halted set, flags Z, the program counter advanced,
no other register, storage or console change. -/
def Obligations.HaltCompletes : Prop :=
  ∀ (f : Fields) (s : State), Executes f.pred s.flags →
    ∃ t, exec (.halt f) s = .next t ∧ t.halted = true ∧ t.flags = 0b0010#4 ∧ RegsAfterAdvance s t ∧
      t.fault = s.fault ∧ t.config = s.config ∧ KeepsStorage s t ∧ KeepsConsole s t

/-- R132: an ALU instruction with target r15 jumps to its result, whose flags it leaves, and changes nothing
else; one that is skipped falls through and leaves the flags; a DIV with a zero divisor faults and does not
jump, and the word of its record is written as the encoding of the instruction, the model's choice (log entry
10). -/
def Obligations.AluJumpGoesToResult : Prop :=
  ∀ (op : Opcode) (f : Fields) (s : State),
    op ∈ [Opcode.add, .sub, .mul, .div, .and, .or] → f.target = 15 →
    (¬ Executes f.pred s.flags → exec (op.instr f) s = .next { s with pc := s.pc + 1#32 }) ∧
    (Executes f.pred s.flags →
      match alu op (s.readReg f.src1) (wrap32 ((s.readReg f.src2).toInt + f.offset)) with
      | some (result, x) => exec (op.instr f) s = .next { s with pc := result, flags := x }
      | none =>
        op = .div ∧ wrap32 ((s.readReg f.src2).toInt + f.offset) = 0#32 ∧
          exec (op.instr f) s =
            .next { s with fault := some ⟨.divisionByZero, .fetch, s.pc, encode (op.instr f)⟩ })

/-- R74: the symbolic forms of the assembler reach their label from the line they stand on. -/
def Obligations.SymbolicFormsReachLabel : Prop :=
  ∀ (p : Predicate) (target : RegNum) (label current : Nat) (s : State), s.pc = BitVec.ofNat 32 current →
    (∀ f, symbolicLoad p target label current = some (.load f) →
      effectiveAddress f s = BitVec.ofNat 32 label) ∧
    (∀ f, symbolicStore p target label current = some (.store f) →
      effectiveAddress f s = BitVec.ofNat 32 label) ∧
    (∀ i, symbolicJump p label current = some i → Executes p s.flags →
      ∃ t, exec i s = .next t ∧ t.pc = BitVec.ofNat 32 label)

/-! ### The step -/

/-- R80: a Running machine whose program counter is at a storage word that decodes runs that instruction, and
the step is `exec` of it with nothing around it. -/
def Obligations.StepRunsDecodedInstruction : Prop :=
  ∀ (s : State) (i : Instr), Running s → IsStorage s.config s.pc →
    decode (s.mem.read s.pc.toNat) = .ok i → step s = exec i s

/-- R80, R18, R148: a Halted or Faulted machine takes no step, which `step` answers by name (log entry 7). -/
def Obligations.StoppedMachineTakesNoStep : Prop :=
  ∀ s : State, (Halted s → step s = .fault .halted) ∧ (Faulted s → step s = .fault .faulted)

/-- R161, R40: the one other reason for taking no step is to wait for the console, and the machine waits
exactly when its next instruction is an executed LOAD from the input address and nothing is supplied; a
Running machine is never refused. The wait is the outcome `consoleInputEmpty`, the model's choice of form (log
entry 8). -/
def Obligations.RunningMachineStepsOrWaits : Prop :=
  ∀ s : State,
    (Running s → (∃ t, step s = .next t) ∨ Waiting s) ∧
    (Waiting s ↔ Running s ∧ ∃ w f, s.fetch s.pc = some w ∧ decode w = .ok (.load f) ∧
      Executes f.pred s.flags ∧ (effectiveAddress f s).toNat = s.config.ioIn ∧ s.inStream = [])

/-- R153, R40: a waiting machine (log entry 8) takes its step when words are supplied, and takes the first of
them. -/
def Obligations.WaitingMachineResumes : Prop :=
  ∀ (s : State) (v : Word) (vs : List Word), Waiting s →
    ∃ t, step (s.supply (v :: vs)) = .next t ∧ t.inStream = vs ∧ t.fault = none

/-- R64, which the spec infers from R56 and R83: a storage word below 2^22 is a HALT with predicate NEVER,
which only advances the program counter. -/
def Obligations.SmallDataWordIsSkipped : Prop :=
  ∀ (s : State) (w : Word), Running s → s.fetch s.pc = some w → w.toNat < 2 ^ 22 →
    step s = .next { s with pc := s.pc + 1#32 }

/-- R136, R93: only an executed HALT stops a Running machine without a fault, and it leaves the program
counter one past the HALT and the flags Z. -/
def Obligations.OnlyHaltStopsTheMachine : Prop :=
  ∀ s t : State, step s = .next t → t.halted = true →
    (∃ w f, s.fetch s.pc = some w ∧ decode w = .ok (.halt f) ∧ Executes f.pred s.flags) ∧
      t.fault = none ∧ t.pc = s.pc + 1#32 ∧ t.flags = 0b0010#4

/-- R124, R44: a step changes at most one word of storage, and only by an executed STORE to it. -/
def Obligations.OnlyStoreChangesStorage : Prop :=
  ∀ (s t : State) (a : Nat), step s = .next t → t.mem.read a ≠ s.mem.read a →
    ∃ w f, s.fetch s.pc = some w ∧ decode w = .ok (.store f) ∧ Executes f.pred s.flags ∧
      a = (effectiveAddress f s).toNat ∧ IsStorage s.config (effectiveAddress f s) ∧
      ∀ b, b ≠ a → t.mem.read b = s.mem.read b

/-- R45, R42: a step appends at most one word to the console output, and takes at most the first word of the
console input; it does the one by an executed STORE to the output address, the other by an executed LOAD
from the input address. -/
def Obligations.ConsoleMovesInOrder : Prop :=
  ∀ s t : State, step s = .next t →
    (t.outStream = s.outStream ∨ ∃ w f, s.fetch s.pc = some w ∧ decode w = .ok (.store f) ∧
      Executes f.pred s.flags ∧ (effectiveAddress f s).toNat = s.config.ioOut ∧
      t.outStream = s.outStream ++ [storeData f s]) ∧
    (t.inStream = s.inStream ∨ ∃ w f v, s.fetch s.pc = some w ∧ decode w = .ok (.load f) ∧
      Executes f.pred s.flags ∧ (effectiveAddress f s).toNat = s.config.ioIn ∧
      s.inStream = v :: t.inStream)

/-- R22, R41: nothing the machine does depends on what it has written to the console. Whatever was written
before, a step appends the same words and makes the same next state, and a machine that takes no step takes
none, for the same reason. -/
def Obligations.OutputIsUnobservable : Prop :=
  ∀ s : State,
    (∀ t, step s = .next t → ∃ suf, t.outStream = s.outStream ++ suf ∧
      ∀ out, step (s.withOutStream out) = .next (t.withOutStream (out ++ suf))) ∧
    ∀ r, step s = .fault r → ∀ out, step (s.withOutStream out) = .fault r

/-- R132, R92: a jump to itself, `ADD/p r15,r0,r15[0]`, runs forever if its predicate passes now and passes
against the flags that the jump leaves, those of its own address: after any number of steps the machine is
Running at the same address, and takes the next step. -/
def Obligations.JumpToSelfRunsForever : Prop :=
  ∀ (s : State) (w : Word) (p : Predicate) (n : Nat), Running s → s.fetch s.pc = some w →
    decode w = .ok (.add ⟨p, 15, 0, 15, 0⟩) → Executes p s.flags →
    Executes p (if s.pc = 0#32 then 0b0010#4 else 0b0100#4) →
    Running (runLoop n s) ∧ (runLoop n s).pc = s.pc ∧ ∃ t, step (runLoop n s) = .next t

/-- R92: the run loop ends where no step is taken, and more steps change nothing. -/
def Obligations.EndedRunIsFinal : Prop :=
  ∀ (n m : Nat) (s : State), ¬ Running (runLoop n s) → runLoop (n + m) s = runLoop n s

/-! ### Faults -/

/-- R35: a Running machine whose program counter is outside 0 to N-1 or at an I/O address writes nothing but
the fault record, and takes no console word. -/
def Obligations.FetchOutsideStorageFaults : Prop :=
  ∀ s : State, Running s → ¬ IsStorage s.config s.pc →
    step s = .next { s with fault := some ⟨.memoryFault, .fetch, s.pc, 0#32⟩ }

/-- R142, R62: a fetched word whose opcode field is 4 or 10 to 63 faults whatever its predicate. -/
def Obligations.UnknownOpcodeFaults : Prop :=
  ∀ (s : State) (w : Word), Running s → s.fetch s.pc = some w →
    (w.toNat / 2 ^ 26 = 4 ∨ 10 ≤ w.toNat / 2 ^ 26) →
    step s = .next { s with fault := some ⟨.unknownOpcode, .fetch, s.pc, w⟩ }

/-- R91, R144: a step that faults changes nothing but the fault record. -/
def Obligations.FaultsArePrecise : Prop :=
  ∀ s t : State, step s = .next t → t.fault ≠ none → t = { s with fault := t.fault }

/-- R141: the record of a step that faults tells the truth: the cause, the kind, the address and the word
fetched are those of the step, and its condition held; its two codes are one of the five pairs listed. -/
def Obligations.FaultRecordTellsTheTruth : Prop :=
  ∀ (s t : State) (r : FaultRecord), step s = .next t → t.fault = some r →
    FaultRecordTrue s r ∧ t.pc = s.pc ∧
      (r.cause.code.toNat, r.kind.code.toNat) ∈ [(1, 0), (2, 0), (3, 0), (3, 1), (3, 2)]

/-! ### Invariants -/

/-- The invariant holds after reset, with any valid parameters. -/
def Obligations.ResetMeetsInvariant : Prop :=
  Inv State.reset ∧ ∀ c : Config, c.Valid → Inv (State.resetWith c)

/-- Every step keeps the invariant: the parameters valid, the memory canonical and within 0 to N-1, the flags
those of an ALU result or of reset (R17), Halted and Faulted apart (R19), the record legal (R141). -/
def Obligations.StepKeepsInvariant : Prop :=
  ∀ s t : State, Inv s → step s = .next t → Inv t

/-- From every state that meets the invariant, each step and each move of the host (R161, R167) leads to one
that meets it, and changes no parameter (R24); so every state the machine can reach from a reset with valid
parameters, by steps and host moves in any order, meets it. -/
def Obligations.ReachableStatesMeetInvariant : Prop :=
  (∀ s t : State, Inv s → Move s t → Inv t ∧ t.config = s.config) ∧
  (∀ c : Config, c.Valid → Inv (State.resetWith c)) ∧ ∀ s : State, Reachable s → Inv s
end

