-- ==== Sys2Proof/Laws/State.lean ====
section
/-! SUPPORT. One lemma per field per update: what each field update leaves in each field of the state. -/

namespace Sys2Proof.Machine

/-! ### withGeneral -/

@[simp] theorem withGeneral_config (s : State) (x : Vector Word 14) : (s.withGeneral x).config = s.config := rfl
@[simp] theorem withGeneral_general (s : State) (x : Vector Word 14) : (s.withGeneral x).general = x := rfl
@[simp] theorem withGeneral_pc (s : State) (x : Vector Word 14) : (s.withGeneral x).pc = s.pc := rfl
@[simp] theorem withGeneral_flags (s : State) (x : Vector Word 14) : (s.withGeneral x).flags = s.flags := rfl
@[simp] theorem withGeneral_halted (s : State) (x : Vector Word 14) : (s.withGeneral x).halted = s.halted := rfl
@[simp] theorem withGeneral_fault (s : State) (x : Vector Word 14) : (s.withGeneral x).fault = s.fault := rfl
@[simp] theorem withGeneral_mem (s : State) (x : Vector Word 14) : (s.withGeneral x).mem = s.mem := rfl
@[simp] theorem withGeneral_inStream (s : State) (x : Vector Word 14) : (s.withGeneral x).inStream = s.inStream := rfl
@[simp] theorem withGeneral_outStream (s : State) (x : Vector Word 14) : (s.withGeneral x).outStream = s.outStream := rfl

/-! ### withPc -/

@[simp] theorem withPc_config (s : State) (x : Word) : (s.withPc x).config = s.config := rfl
@[simp] theorem withPc_general (s : State) (x : Word) : (s.withPc x).general = s.general := rfl
@[simp] theorem withPc_pc (s : State) (x : Word) : (s.withPc x).pc = x := rfl
@[simp] theorem withPc_flags (s : State) (x : Word) : (s.withPc x).flags = s.flags := rfl
@[simp] theorem withPc_halted (s : State) (x : Word) : (s.withPc x).halted = s.halted := rfl
@[simp] theorem withPc_fault (s : State) (x : Word) : (s.withPc x).fault = s.fault := rfl
@[simp] theorem withPc_mem (s : State) (x : Word) : (s.withPc x).mem = s.mem := rfl
@[simp] theorem withPc_inStream (s : State) (x : Word) : (s.withPc x).inStream = s.inStream := rfl
@[simp] theorem withPc_outStream (s : State) (x : Word) : (s.withPc x).outStream = s.outStream := rfl

/-! ### withFlags -/

@[simp] theorem withFlags_config (s : State) (x : Flags) : (s.withFlags x).config = s.config := rfl
@[simp] theorem withFlags_general (s : State) (x : Flags) : (s.withFlags x).general = s.general := rfl
@[simp] theorem withFlags_pc (s : State) (x : Flags) : (s.withFlags x).pc = s.pc := rfl
@[simp] theorem withFlags_flags (s : State) (x : Flags) : (s.withFlags x).flags = x := rfl
@[simp] theorem withFlags_halted (s : State) (x : Flags) : (s.withFlags x).halted = s.halted := rfl
@[simp] theorem withFlags_fault (s : State) (x : Flags) : (s.withFlags x).fault = s.fault := rfl
@[simp] theorem withFlags_mem (s : State) (x : Flags) : (s.withFlags x).mem = s.mem := rfl
@[simp] theorem withFlags_inStream (s : State) (x : Flags) : (s.withFlags x).inStream = s.inStream := rfl
@[simp] theorem withFlags_outStream (s : State) (x : Flags) : (s.withFlags x).outStream = s.outStream := rfl

/-! ### withHalted -/

@[simp] theorem withHalted_config (s : State) (x : Bool) : (s.withHalted x).config = s.config := rfl
@[simp] theorem withHalted_general (s : State) (x : Bool) : (s.withHalted x).general = s.general := rfl
@[simp] theorem withHalted_pc (s : State) (x : Bool) : (s.withHalted x).pc = s.pc := rfl
@[simp] theorem withHalted_flags (s : State) (x : Bool) : (s.withHalted x).flags = s.flags := rfl
@[simp] theorem withHalted_halted (s : State) (x : Bool) : (s.withHalted x).halted = x := rfl
@[simp] theorem withHalted_fault (s : State) (x : Bool) : (s.withHalted x).fault = s.fault := rfl
@[simp] theorem withHalted_mem (s : State) (x : Bool) : (s.withHalted x).mem = s.mem := rfl
@[simp] theorem withHalted_inStream (s : State) (x : Bool) : (s.withHalted x).inStream = s.inStream := rfl
@[simp] theorem withHalted_outStream (s : State) (x : Bool) : (s.withHalted x).outStream = s.outStream := rfl

/-! ### withFault -/

@[simp] theorem withFault_config (s : State) (x : Option FaultRecord) : (s.withFault x).config = s.config := rfl
@[simp] theorem withFault_general (s : State) (x : Option FaultRecord) : (s.withFault x).general = s.general := rfl
@[simp] theorem withFault_pc (s : State) (x : Option FaultRecord) : (s.withFault x).pc = s.pc := rfl
@[simp] theorem withFault_flags (s : State) (x : Option FaultRecord) : (s.withFault x).flags = s.flags := rfl
@[simp] theorem withFault_halted (s : State) (x : Option FaultRecord) : (s.withFault x).halted = s.halted := rfl
@[simp] theorem withFault_fault (s : State) (x : Option FaultRecord) : (s.withFault x).fault = x := rfl
@[simp] theorem withFault_mem (s : State) (x : Option FaultRecord) : (s.withFault x).mem = s.mem := rfl
@[simp] theorem withFault_inStream (s : State) (x : Option FaultRecord) : (s.withFault x).inStream = s.inStream := rfl
@[simp] theorem withFault_outStream (s : State) (x : Option FaultRecord) : (s.withFault x).outStream = s.outStream := rfl

/-! ### withMem -/

@[simp] theorem withMem_config (s : State) (x : Memory) : (s.withMem x).config = s.config := rfl
@[simp] theorem withMem_general (s : State) (x : Memory) : (s.withMem x).general = s.general := rfl
@[simp] theorem withMem_pc (s : State) (x : Memory) : (s.withMem x).pc = s.pc := rfl
@[simp] theorem withMem_flags (s : State) (x : Memory) : (s.withMem x).flags = s.flags := rfl
@[simp] theorem withMem_halted (s : State) (x : Memory) : (s.withMem x).halted = s.halted := rfl
@[simp] theorem withMem_fault (s : State) (x : Memory) : (s.withMem x).fault = s.fault := rfl
@[simp] theorem withMem_mem (s : State) (x : Memory) : (s.withMem x).mem = x := rfl
@[simp] theorem withMem_inStream (s : State) (x : Memory) : (s.withMem x).inStream = s.inStream := rfl
@[simp] theorem withMem_outStream (s : State) (x : Memory) : (s.withMem x).outStream = s.outStream := rfl

/-! ### withInStream -/

@[simp] theorem withInStream_config (s : State) (x : List Word) : (s.withInStream x).config = s.config := rfl
@[simp] theorem withInStream_general (s : State) (x : List Word) : (s.withInStream x).general = s.general := rfl
@[simp] theorem withInStream_pc (s : State) (x : List Word) : (s.withInStream x).pc = s.pc := rfl
@[simp] theorem withInStream_flags (s : State) (x : List Word) : (s.withInStream x).flags = s.flags := rfl
@[simp] theorem withInStream_halted (s : State) (x : List Word) : (s.withInStream x).halted = s.halted := rfl
@[simp] theorem withInStream_fault (s : State) (x : List Word) : (s.withInStream x).fault = s.fault := rfl
@[simp] theorem withInStream_mem (s : State) (x : List Word) : (s.withInStream x).mem = s.mem := rfl
@[simp] theorem withInStream_inStream (s : State) (x : List Word) : (s.withInStream x).inStream = x := rfl
@[simp] theorem withInStream_outStream (s : State) (x : List Word) : (s.withInStream x).outStream = s.outStream := rfl

/-! ### withOutStream -/

@[simp] theorem withOutStream_config (s : State) (x : List Word) : (s.withOutStream x).config = s.config := rfl
@[simp] theorem withOutStream_general (s : State) (x : List Word) : (s.withOutStream x).general = s.general := rfl
@[simp] theorem withOutStream_pc (s : State) (x : List Word) : (s.withOutStream x).pc = s.pc := rfl
@[simp] theorem withOutStream_flags (s : State) (x : List Word) : (s.withOutStream x).flags = s.flags := rfl
@[simp] theorem withOutStream_halted (s : State) (x : List Word) : (s.withOutStream x).halted = s.halted := rfl
@[simp] theorem withOutStream_fault (s : State) (x : List Word) : (s.withOutStream x).fault = s.fault := rfl
@[simp] theorem withOutStream_mem (s : State) (x : List Word) : (s.withOutStream x).mem = s.mem := rfl
@[simp] theorem withOutStream_inStream (s : State) (x : List Word) : (s.withOutStream x).inStream = s.inStream := rfl
@[simp] theorem withOutStream_outStream (s : State) (x : List Word) : (s.withOutStream x).outStream = x := rfl

end Sys2Proof.Machine
end

