-- ==== Sys2Proof/Laws/Registers.lean ====
section
/-! SUPPORT. What a register read gives after a register write, and what register operations leave alone. -/

namespace Sys2Proof.Machine

@[simp] theorem readReg_zero (s : State) : s.readReg 0 = 0#32 := rfl

@[simp] theorem readReg_pc (s : State) : s.readReg 15 = s.pc := rfl

theorem readReg_general (s : State) (r : RegNum) (h0 : r.val ≠ 0) (h15 : r.val ≠ 15) :
    s.readReg r = s.general[r.val - 1] := by
  simp [State.readReg, h0, h15]

/-- A read depends only on the general registers and the program counter. -/
theorem readReg_congr {s t : State} (hg : t.general = s.general) (hp : t.pc = s.pc) (r : RegNum) :
    t.readReg r = s.readReg r := by
  simp only [State.readReg, hg, hp]

@[simp] theorem readReg_withFlags (s : State) (x : Flags) (r : RegNum) :
    (s.withFlags x).readReg r = s.readReg r := rfl
@[simp] theorem readReg_withHalted (s : State) (x : Bool) (r : RegNum) :
    (s.withHalted x).readReg r = s.readReg r := rfl
@[simp] theorem readReg_withFault (s : State) (x : Option FaultRecord) (r : RegNum) :
    (s.withFault x).readReg r = s.readReg r := rfl
@[simp] theorem readReg_withMem (s : State) (x : Memory) (r : RegNum) :
    (s.withMem x).readReg r = s.readReg r := rfl
@[simp] theorem readReg_withInStream (s : State) (x : List Word) (r : RegNum) :
    (s.withInStream x).readReg r = s.readReg r := rfl
@[simp] theorem readReg_withOutStream (s : State) (x : List Word) (r : RegNum) :
    (s.withOutStream x).readReg r = s.readReg r := rfl

theorem readReg_withPc (s : State) (v : Word) (r : RegNum) :
    (s.withPc v).readReg r = if r = 15 then v else s.readReg r := by
  by_cases h : r = 15
  · subst h; rfl
  · have h' : r.val ≠ 15 := fun e => h (Fin.ext e)
    simp [State.readReg, h, h']

/-- R11, R12: the one read-after-write law of the register file. -/
theorem readReg_writeReg (s : State) (d r : RegNum) (v : Word) :
    (s.writeReg d v).readReg r = if r = 0 then 0#32 else if r = d then v else s.readReg r := by
  by_cases hr0 : r = 0
  · subst hr0; rfl
  have hr0' : r.val ≠ 0 := fun e => hr0 (Fin.ext e)
  rw [if_neg hr0]
  by_cases hd0 : d.val = 0
  · have hrd : r ≠ d := fun e => hr0' (e ▸ hd0)
    simp [State.writeReg, hd0, hrd]
  by_cases hd15 : d.val = 15
  · have hd : d = 15 := Fin.ext hd15
    subst hd
    have hw : s.writeReg 15 v = s.withPc v := rfl
    rw [hw, readReg_withPc]
  by_cases hr15 : r.val = 15
  · have hrd : r ≠ d := fun e => hd15 (e ▸ hr15)
    simp [State.writeReg, State.readReg, hd0, hd15, hr15, hrd]
  · simp only [State.writeReg, State.readReg, hd0, hd15, hr0', hr15, dite_false, withGeneral_general]
    rw [Vector.getElem_set]
    by_cases hrd : r = d
    · subst hrd; simp
    · have hne : d.val - 1 ≠ r.val - 1 := fun e => hrd (Fin.ext (by omega))
      simp [hne, hrd]

theorem writeReg_zero (s : State) (v : Word) : s.writeReg 0 v = s := rfl

theorem writeReg_pc (s : State) (d : RegNum) (v : Word) :
    (s.writeReg d v).pc = if d = 15 then v else s.pc := by
  have h := readReg_writeReg s d 15 v
  have h0 : (15 : RegNum) ≠ 0 := by decide
  rw [readReg_pc, if_neg h0, readReg_pc] at h
  rw [h]
  by_cases e : d = 15
  · rw [if_pos e, if_pos e.symm]
  · rw [if_neg e, if_neg (Ne.symm e)]

/-- A register write changes only the general registers and the program counter. -/
theorem writeReg_shape (s : State) (d : RegNum) (v : Word) :
    ∃ g p, s.writeReg d v = (s.withGeneral g).withPc p := by
  by_cases h0 : d.val = 0
  · exact ⟨s.general, s.pc, by simp [State.writeReg, h0, State.withGeneral, State.withPc]⟩
  by_cases h15 : d.val = 15
  · exact ⟨s.general, v, by simp [State.writeReg, h15, State.withGeneral, State.withPc]⟩
  · exact ⟨s.general.set (d.val - 1) v, s.pc, by
      simp [State.writeReg, h0, h15, State.withGeneral, State.withPc]⟩

@[simp] theorem writeReg_config (s : State) (d : RegNum) (v : Word) : (s.writeReg d v).config = s.config := by
  obtain ⟨g, p, h⟩ := writeReg_shape s d v; rw [h]; rfl
@[simp] theorem writeReg_flags (s : State) (d : RegNum) (v : Word) : (s.writeReg d v).flags = s.flags := by
  obtain ⟨g, p, h⟩ := writeReg_shape s d v; rw [h]; rfl
@[simp] theorem writeReg_halted (s : State) (d : RegNum) (v : Word) : (s.writeReg d v).halted = s.halted := by
  obtain ⟨g, p, h⟩ := writeReg_shape s d v; rw [h]; rfl
@[simp] theorem writeReg_fault (s : State) (d : RegNum) (v : Word) : (s.writeReg d v).fault = s.fault := by
  obtain ⟨g, p, h⟩ := writeReg_shape s d v; rw [h]; rfl
@[simp] theorem writeReg_mem (s : State) (d : RegNum) (v : Word) : (s.writeReg d v).mem = s.mem := by
  obtain ⟨g, p, h⟩ := writeReg_shape s d v; rw [h]; rfl
@[simp] theorem writeReg_inStream (s : State) (d : RegNum) (v : Word) :
    (s.writeReg d v).inStream = s.inStream := by
  obtain ⟨g, p, h⟩ := writeReg_shape s d v; rw [h]; rfl
@[simp] theorem writeReg_outStream (s : State) (d : RegNum) (v : Word) :
    (s.writeReg d v).outStream = s.outStream := by
  obtain ⟨g, p, h⟩ := writeReg_shape s d v; rw [h]; rfl

@[simp] theorem advancePc_pc (s : State) : s.advancePc.pc = s.pc + 1#32 := rfl
@[simp] theorem advancePc_config (s : State) : s.advancePc.config = s.config := rfl
@[simp] theorem advancePc_flags (s : State) : s.advancePc.flags = s.flags := rfl
@[simp] theorem advancePc_halted (s : State) : s.advancePc.halted = s.halted := rfl
@[simp] theorem advancePc_fault (s : State) : s.advancePc.fault = s.fault := rfl
@[simp] theorem advancePc_mem (s : State) : s.advancePc.mem = s.mem := rfl
@[simp] theorem advancePc_inStream (s : State) : s.advancePc.inStream = s.inStream := rfl
@[simp] theorem advancePc_outStream (s : State) : s.advancePc.outStream = s.outStream := rfl

theorem readReg_advancePc (s : State) (r : RegNum) :
    s.advancePc.readReg r = if r = 15 then s.pc + 1#32 else s.readReg r :=
  readReg_withPc s _ r

end Sys2Proof.Machine
end

