-- ==== Sys2Proof/Laws/Access.lean ====
section
/-! SUPPORT. Everything the access primitives can do (rules R35 to R41), said once. -/

namespace Sys2Proof.Machine

theorem fetch_eq_some {s : State} {a w : Word} (h : s.fetch a = some w) :
    InRange s.config a ∧ a.toNat ≠ s.config.ioIn ∧ a.toNat ≠ s.config.ioOut ∧ w = s.mem.read a.toNat := by
  unfold State.fetch at h
  split at h
  · cases h
  · split at h
    · cases h
    · next h1 h2 =>
      cases h
      push Not at h1 h2
      exact ⟨h1, h2.1, h2.2, rfl⟩

theorem fetch_of_storage {s : State} {a : Word} (h : InRange s.config a) (hi : a.toNat ≠ s.config.ioIn)
    (ho : a.toNat ≠ s.config.ioOut) : s.fetch a = some (s.mem.read a.toNat) := by
  unfold State.fetch
  rw [if_neg (not_not.mpr h), if_neg (by rintro (e | e) <;> contradiction)]

theorem fetch_eq_none {s : State} {a : Word} :
    s.fetch a = none ↔ ¬ InRange s.config a ∨ a.toNat = s.config.ioIn ∨ a.toNat = s.config.ioOut := by
  unfold State.fetch
  split
  · next h => simp [h]
  · next h =>
    split
    · next h' => simp [h']
    · next h' => simpa [h'] using h

/-! ### What each access comes to, by its address -/

theorem memRead_of_word {s : State} {ea v : Word} {rest : List Word} (h : ea.toNat = s.config.ioIn)
    (hs : s.inStream = v :: rest) : s.memRead ea = .done (v, s.withInStream rest) := by
  unfold State.memRead State.consoleIn; rw [if_pos h, hs]

theorem memRead_of_empty {s : State} {ea : Word} (h : ea.toNat = s.config.ioIn) (hs : s.inStream = []) :
    s.memRead ea = .waiting := by
  unfold State.memRead State.consoleIn; rw [if_pos h, hs]

theorem memRead_of_bad {s : State} {ea : Word} (hi : ea.toNat ≠ s.config.ioIn)
    (h : ea.toNat = s.config.ioOut ∨ ¬ InRange s.config ea) : s.memRead ea = .memoryFault .load := by
  unfold State.memRead
  rw [if_neg hi]
  rcases h with h | h
  · rw [if_pos h]
  · rw [if_pos h, ite_self]

theorem memRead_of_storage {s : State} {ea : Word} (hr : InRange s.config ea) (hi : ea.toNat ≠ s.config.ioIn)
    (ho : ea.toNat ≠ s.config.ioOut) : s.memRead ea = .done (s.mem.read ea.toNat, s) := by
  unfold State.memRead; rw [if_neg hi, if_neg ho, if_neg (not_not.mpr hr)]

theorem memWrite_of_console {s : State} {ea : Word} (v : Word) (h : ea.toNat = s.config.ioOut) :
    s.memWrite ea v = .done (s.withOutStream (s.outStream ++ [v])) := by
  unfold State.memWrite; rw [if_pos h]; rfl

theorem memWrite_of_bad {s : State} {ea : Word} (v : Word) (ho : ea.toNat ≠ s.config.ioOut)
    (h : ea.toNat = s.config.ioIn ∨ ¬ InRange s.config ea) : s.memWrite ea v = .memoryFault .store := by
  unfold State.memWrite
  rw [if_neg ho]
  rcases h with h | h
  · rw [if_pos h]
  · rw [if_pos h, ite_self]

theorem memWrite_of_storage {s : State} {ea : Word} (v : Word) (hr : InRange s.config ea)
    (hi : ea.toNat ≠ s.config.ioIn) (ho : ea.toNat ≠ s.config.ioOut) :
    s.memWrite ea v = .done (s.withMem (s.mem.write ea.toNat v)) := by
  unfold State.memWrite; rw [if_neg ho, if_neg hi, if_neg (not_not.mpr hr)]

/-! ### What an outcome tells of its access -/

/-- R36: a finished load took a console word, or read a storage word and changed nothing. -/
theorem memRead_done {s s' : State} {ea v : Word} (h : s.memRead ea = .done (v, s')) :
    (ea.toNat = s.config.ioIn ∧ ∃ rest, s.inStream = v :: rest ∧ s' = s.withInStream rest) ∨
    (ea.toNat ≠ s.config.ioIn ∧ ea.toNat ≠ s.config.ioOut ∧ InRange s.config ea ∧
      v = s.mem.read ea.toNat ∧ s' = s) := by
  unfold State.memRead at h
  split at h
  · next hin =>
    unfold State.consoleIn at h
    split at h
    · cases h
    · next v' rest hs => cases h; exact .inl ⟨hin, rest, hs, rfl⟩
  · split at h
    · cases h
    · split at h
      · cases h
      · next h1 h2 h3 => cases h; exact .inr ⟨h1, h2, not_not.mp h3, rfl, rfl⟩

theorem memRead_fault {s : State} {ea : Word} {k : AccessKind} (h : s.memRead ea = .memoryFault k) :
    k = .load ∧ ea.toNat ≠ s.config.ioIn ∧ (ea.toNat = s.config.ioOut ∨ ¬ InRange s.config ea) := by
  unfold State.memRead at h
  split at h
  · unfold State.consoleIn at h
    split at h <;> cases h
  · split at h
    · next h1 h2 => cases h; exact ⟨rfl, h1, .inl h2⟩
    · split at h
      · next h1 h2 h3 => cases h; exact ⟨rfl, h1, .inr h3⟩
      · cases h

theorem memRead_waiting {s : State} {ea : Word} (h : s.memRead ea = .waiting) :
    ea.toNat = s.config.ioIn ∧ s.inStream = [] := by
  unfold State.memRead at h
  split at h
  · next hin =>
    unfold State.consoleIn at h
    split at h
    · next hs => exact ⟨hin, hs⟩
    · cases h
  · split at h
    · cases h
    · split at h <;> cases h

/-- R37: a finished store appended to the console output, or wrote one storage word. -/
theorem memWrite_done {s s' : State} {ea v : Word} (h : s.memWrite ea v = .done s') :
    (ea.toNat = s.config.ioOut ∧ s' = s.withOutStream (s.outStream ++ [v])) ∨
    (ea.toNat ≠ s.config.ioOut ∧ ea.toNat ≠ s.config.ioIn ∧ InRange s.config ea ∧
      s' = s.withMem (s.mem.write ea.toNat v)) := by
  unfold State.memWrite at h
  split at h
  · next ho => cases h; exact .inl ⟨ho, rfl⟩
  · split at h
    · cases h
    · split at h
      · cases h
      · next h1 h2 h3 => cases h; exact .inr ⟨h1, h2, not_not.mp h3, rfl⟩

theorem memWrite_fault {s : State} {ea v : Word} {k : AccessKind} (h : s.memWrite ea v = .memoryFault k) :
    k = .store ∧ ea.toNat ≠ s.config.ioOut ∧ (ea.toNat = s.config.ioIn ∨ ¬ InRange s.config ea) := by
  unfold State.memWrite at h
  split at h
  · cases h
  · split at h
    · next h1 h2 => cases h; exact ⟨rfl, h1, .inl h2⟩
    · split at h
      · next h1 h2 h3 => cases h; exact ⟨rfl, h1, .inr h3⟩
      · cases h

theorem memWrite_ne_waiting (s : State) (ea v : Word) : s.memWrite ea v ≠ .waiting := by
  unfold State.memWrite
  split
  · simp
  · split
    · simp
    · split <;> simp

end Sys2Proof.Machine
end

