-- ==== Sys2Proof/Laws/BitField.lean ====
section
/-! SUPPORT. The bits of a BitField's masks, and what an insertion leaves alone. -/

namespace Sys2Proof

theorem width_pos (f : BitField) : 0 < f.width := by unfold BitField.width; omega

theorem fromBit_add_width (f : BitField) : f.fromBit + f.width = f.toBit + 1 := by
  have := f.ordered; unfold BitField.width; omega

/-- The mask holds ones in the field and nowhere else. -/
theorem mask_getLsbD (f : BitField) (k : Nat) :
    f.mask.getLsbD k = decide (f.fromBit ≤ k ∧ k ≤ f.toBit) := by
  have hb := f.bounded
  have hw := fromBit_add_width f
  unfold BitField.mask
  rw [BitVec.getLsbD_ofNat, Nat.testBit_mul_two_pow, Nat.testBit_two_pow_sub_one]
  by_cases h : f.fromBit ≤ k ∧ k ≤ f.toBit
  · have h1 : k < 32 := by omega
    have h2 : k ≥ f.fromBit := h.1
    have h3 : k - f.fromBit < f.width := by omega
    simp [h1, h2, h3, h]
  · have h3 : ¬ (k ≥ f.fromBit ∧ k - f.fromBit < f.width) := by omega
    have h4 : (decide (k ≥ f.fromBit) && decide (k - f.fromBit < f.width)) = false := by
      rw [← Bool.decide_and]; exact decide_eq_false h3
    rw [h4, decide_eq_false h, Bool.and_false]

theorem inverseMask_getLsbD (f : BitField) (k : Nat) :
    f.inverseMask.getLsbD k = (decide (k < 32) && !decide (f.fromBit ≤ k ∧ k ≤ f.toBit)) := by
  unfold BitField.inverseMask
  have ones : (0xFFFFFFFF#32).getLsbD k = decide (k < 32) := by
    have : (0xFFFFFFFF#32) = BitVec.allOnes 32 := by decide
    rw [this, BitVec.getLsbD_allOnes]
  have hb := f.bounded
  rw [BitVec.getLsbD_xor, mask_getLsbD, ones]
  by_cases hk : k < 32
  · simp [hk]
  · have : ¬ (f.fromBit ≤ k ∧ k ≤ f.toBit) := by omega
    simp [hk, this]

/-- R51: an insertion leaves every bit outside its field as it was. -/
theorem insert_getLsbD_outside (f : BitField) (v : Int) (w : Word) (k : Nat)
    (h : ¬ (f.fromBit ≤ k ∧ k ≤ f.toBit)) : (f.insert v w).getLsbD k = w.getLsbD k := by
  unfold BitField.insert
  rw [BitVec.getLsbD_or, BitVec.getLsbD_and, BitVec.getLsbD_and, mask_getLsbD, inverseMask_getLsbD,
    decide_eq_false h]
  by_cases hk : k < 32
  · simp [hk]
  · simp [hk, BitVec.getLsbD_of_ge w k (by omega)]

/-- The bits [31:26] of an encoded instruction are its opcode number, those of the first insertion. -/
theorem encode_getLsbD_opcode (i : Instr) (k : Nat) (h : 26 ≤ k) :
    (encode i).getLsbD k = (opcodeField.insert i.opcode.number 0#32).getLsbD k := by
  unfold encode
  rw [insert_getLsbD_outside _ _ _ _ (by simp [offsetField]; omega),
    insert_getLsbD_outside _ _ _ _ (by simp [src2Field]; omega),
    insert_getLsbD_outside _ _ _ _ (by simp [src1Field]; omega),
    insert_getLsbD_outside _ _ _ _ (by simp [targetField]; omega),
    insert_getLsbD_outside _ _ _ _ (by simp [predicateField]; omega)]

/-- R58: an encoded instruction matches its row of the opcode table under the mask 0xFC000000. -/
theorem encode_and_mask (i : Instr) :
    encode i &&& 0xFC000000#32 = BitVec.ofNat 32 (i.opcode.number * 2 ^ 26) := by
  have hmask : ∀ k, (0xFC000000#32).getLsbD k = decide (26 ≤ k ∧ k ≤ 31) := by
    intro k
    have := mask_getLsbD opcodeField k
    rwa [show opcodeField.mask = 0xFC000000#32 by decide] at this
  have base : opcodeField.insert i.opcode.number 0#32 &&& 0xFC000000#32
      = BitVec.ofNat 32 (i.opcode.number * 2 ^ 26) := by
    generalize i.opcode = op
    cases op <;> decide
  rw [← base]
  refine BitVec.eq_of_getLsbD_eq fun k _ => ?_
  rw [BitVec.getLsbD_and, BitVec.getLsbD_and, hmask]
  by_cases h : 26 ≤ k
  · rw [encode_getLsbD_opcode i k h]
  · have : ¬ (26 ≤ k ∧ k ≤ 31) := by omega
    simp [this]

end Sys2Proof
end

