-- ==== Sys2Proof/Laws/Decode.lean ====
section
/-! SUPPORT. The decoder by cases, and small facts about the opcode map and the record form of `Instr`. -/

namespace Sys2Proof

theorem opcodeOfNumber_number (op : Opcode) : opcodeOfNumber op.number = some op := by cases op <;> rfl

@[simp] theorem instr_opcode (op : Opcode) (f : Fields) : (op.instr f).opcode = op := by cases op <;> rfl

@[simp] theorem instr_fields (op : Opcode) (f : Fields) : (op.instr f).fields = f := by cases op <;> rfl

@[simp] theorem instr_eta (i : Instr) : i.opcode.instr i.fields = i := by cases i <;> rfl

theorem decode_eq_ok {w : Word} {op : Opcode} (h : opcodeOfNumber (opcodeField.extract w) = some op) :
    decode w = .ok (op.instr (decodeFields w)) := by
  unfold decode; rw [h]

theorem decode_eq_error {w : Word} (h : opcodeOfNumber (opcodeField.extract w) = none) :
    decode w = .error (.unknownOpcode (opcodeField.extract w)) := by
  unfold decode; rw [h]

/-- R58, R62: a number is that of an opcode, or it is 4 or at least 10. -/
theorem opcodeOfNumber_cases (n : Nat) :
    (∃ op, opcodeOfNumber n = some op ∧ op.number = n) ∨
    (opcodeOfNumber n = none ∧ (n = 4 ∨ 10 ≤ n)) := by
  by_cases hn : n < 10
  · interval_cases n <;> simp [opcodeOfNumber, Opcode.number]
  · refine .inr ⟨?_, by omega⟩
    unfold opcodeOfNumber
    split <;> first | rfl | omega

end Sys2Proof
end

