-- ==== Sys2Proof/Laws/Execute.lean ====
section
/-! SUPPORT. Everything an executed instruction can do, said once (rule R80): one equation that makes every
arm of `exec` an `execute` with its write-back, one lemma per way it can end, and the inversion of a next
state. -/

namespace Sys2Proof.Machine

/-- R87: the write-back of each instruction. -/
def writeBackOf : Instr → Word → State → Access State
  | .halt _ => writeBackHalt
  | .load f => writeBackLoad f
  | .store f => writeBackStore f
  | .add f => writeBackResult f
  | .sub f => writeBackResult f
  | .mul f => writeBackResult f
  | .div f => writeBackResult f
  | .and f => writeBackResult f
  | .or f => writeBackResult f

theorem exec_eq_execute (i : Instr) (s : State) : exec i s = execute i (writeBackOf i) s := by
  cases i <;> rfl

theorem execute_skipped {i : Instr} {wb : Word → State → Access State} {s : State}
    (h : ¬ Executes i.fields.pred s.flags) : execute i wb s = .next s.skip := by
  unfold execute; rw [if_neg h]

theorem execute_alu_none {i : Instr} {wb : Word → State → Access State} {s : State}
    (h : Executes i.fields.pred s.flags)
    (ha : alu i.opcode (leftOperand i.fields s) (rightOperand i.fields s) = none) :
    execute i wb s = .next (s.raiseDivisionByZero i) := by
  unfold execute; rw [if_pos h, ha]

theorem execute_alu_some {i : Instr} {wb : Word → State → Access State} {s : State} {result : Word}
    {fl : Flags} (h : Executes i.fields.pred s.flags)
    (ha : alu i.opcode (leftOperand i.fields s) (rightOperand i.fields s) = some (result, fl)) :
    execute i wb s = finish i s result fl (wb result s.advancePc) := by
  unfold execute; rw [if_pos h, ha]

/-- The four ways an instruction gives a next state. -/
theorem execute_next {i : Instr} {wb : Word → State → Access State} {s t : State}
    (h : execute i wb s = .next t) :
    (¬ Executes i.fields.pred s.flags ∧ t = s.skip) ∨
    (Executes i.fields.pred s.flags ∧
      alu i.opcode (leftOperand i.fields s) (rightOperand i.fields s) = none ∧ t = s.raiseDivisionByZero i) ∨
    ∃ result fl, Executes i.fields.pred s.flags ∧
      alu i.opcode (leftOperand i.fields s) (rightOperand i.fields s) = some (result, fl) ∧
      ((∃ k, wb result s.advancePc = .memoryFault k ∧ t = s.raiseDataFault k result i) ∨
       (∃ s', wb result s.advancePc = .done s' ∧ t = s'.withFlags fl)) := by
  by_cases he : Executes i.fields.pred s.flags
  · cases ha : alu i.opcode (leftOperand i.fields s) (rightOperand i.fields s) with
    | none =>
      rw [execute_alu_none he ha] at h
      cases h
      exact .inr (.inl ⟨he, rfl, rfl⟩)
    | some p =>
      obtain ⟨result, fl⟩ := p
      rw [execute_alu_some he ha] at h
      refine .inr (.inr ⟨result, fl, he, rfl, ?_⟩)
      cases hw : wb result s.advancePc with
      | done s' => rw [hw] at h; cases h; exact .inr ⟨s', rfl, rfl⟩
      | memoryFault k => rw [hw] at h; cases h; exact .inl ⟨k, rfl, rfl⟩
      | waiting => rw [hw] at h; cases h
  · rw [execute_skipped he] at h
    cases h
    exact .inl ⟨he, rfl⟩

/-- The one way an instruction gives no next state: it waits for the console. -/
theorem execute_fault {i : Instr} {wb : Word → State → Access State} {s : State} {r : Fault}
    (h : execute i wb s = .fault r) :
    r = .consoleInputEmpty ∧ ∃ result fl, Executes i.fields.pred s.flags ∧
      alu i.opcode (leftOperand i.fields s) (rightOperand i.fields s) = some (result, fl) ∧
      wb result s.advancePc = .waiting := by
  by_cases he : Executes i.fields.pred s.flags
  · cases ha : alu i.opcode (leftOperand i.fields s) (rightOperand i.fields s) with
    | none => rw [execute_alu_none he ha] at h; cases h
    | some p =>
      obtain ⟨result, fl⟩ := p
      rw [execute_alu_some he ha] at h
      cases hw : wb result s.advancePc with
      | done s' => rw [hw] at h; cases h
      | memoryFault k => rw [hw] at h; cases h
      | waiting => rw [hw] at h; cases h; exact ⟨rfl, result, fl, he, rfl, hw⟩
  · rw [execute_skipped he] at h; cases h

theorem execute_ne_refused {i : Instr} {wb : Word → State → Access State} {s : State} {r : Refusal} :
    execute i wb s ≠ .refused r := by
  unfold execute
  split
  · split
    · simp
    · unfold finish; split <;> simp
  · simp

/-- R105: DIV alone can fail in the ALU. -/
theorem alu_eq_none {op : Opcode} {l r : Word} (h : alu op l r = none) : op = .div ∧ r.toInt = 0 := by
  cases op <;> simp [alu, aluExact, exactHalt, exactAddress, exactAdd, exactSub, exactMul, exactDiv, exactAnd,
    exactOr] at h
  exact ⟨rfl, h⟩

theorem writeBackLoad_done {f : Fields} {ea : Word} {s t : State} (h : writeBackLoad f ea s = .done t) :
    ∃ v s', s.memRead ea = .done (v, s') ∧ t = s'.writeReg f.target v := by
  unfold writeBackLoad at h
  cases hm : s.memRead ea with
  | done p => obtain ⟨v, s'⟩ := p; rw [hm] at h; cases h; exact ⟨v, s', rfl, rfl⟩
  | memoryFault k => rw [hm] at h; cases h
  | waiting => rw [hm] at h; cases h

theorem writeBackLoad_fault {f : Fields} {ea : Word} {s : State} {k : AccessKind}
    (h : writeBackLoad f ea s = .memoryFault k) : s.memRead ea = .memoryFault k := by
  unfold writeBackLoad at h
  cases hm : s.memRead ea with
  | done p => rw [hm] at h; cases h
  | memoryFault k' => rw [hm] at h; cases h; rfl
  | waiting => rw [hm] at h; cases h

theorem writeBackLoad_waiting {f : Fields} {ea : Word} {s : State} (h : writeBackLoad f ea s = .waiting) :
    s.memRead ea = .waiting := by
  unfold writeBackLoad at h
  cases hm : s.memRead ea with
  | done p => rw [hm] at h; cases h
  | memoryFault k => rw [hm] at h; cases h
  | waiting => rfl

/-- R87: what a finished write-back can be, by what it writes: a register, a loaded register, the console
output or a storage word, or the halted bit. -/
theorem writeBackOf_done {i : Instr} {result : Word} {s t : State} (h : writeBackOf i result s = .done t) :
    (∃ f v s', i = .load f ∧ s.memRead result = .done (v, s') ∧ t = s'.writeReg f.target v) ∨
    (∃ f, i = .store f ∧ s.memWrite result (s.readReg f.target) = .done t) ∨
    (∃ f, i = .halt f ∧ t = s.withHalted true) ∨
    (t = s.writeReg i.fields.target result ∧ (∀ f, i ≠ .halt f) ∧ (∀ f, i ≠ .store f) ∧ (∀ f, i ≠ .load f)) := by
  cases i with
  | load f => obtain ⟨v, s', hm, ht⟩ := writeBackLoad_done h; exact .inl ⟨f, v, s', rfl, hm, ht⟩
  | store f => exact .inr (.inl ⟨f, rfl, h⟩)
  | halt f => cases h; exact .inr (.inr (.inl ⟨f, rfl, rfl⟩))
  | add f | sub f | mul f | div f | and f | or f =>
    cases h; exact .inr (.inr (.inr ⟨rfl, by simp, by simp, by simp⟩))

/-- LOAD and STORE alone can fail in the write-back. -/
theorem writeBackOf_fault {i : Instr} {result : Word} {s : State} {k : AccessKind}
    (h : writeBackOf i result s = .memoryFault k) :
    (∃ f, i = .load f ∧ s.memRead result = .memoryFault k) ∨
    (∃ f, i = .store f ∧ s.memWrite result (s.readReg f.target) = .memoryFault k) := by
  cases i with
  | load f => exact .inl ⟨f, rfl, writeBackLoad_fault h⟩
  | store f => exact .inr ⟨f, rfl, h⟩
  | halt f => cases h
  | add f | sub f | mul f | div f | and f | or f => cases h

/-- LOAD alone can wait. -/
theorem writeBackOf_waiting {i : Instr} {result : Word} {s : State} (h : writeBackOf i result s = .waiting) :
    ∃ f, i = .load f ∧ s.memRead result = .waiting := by
  cases i with
  | load f => exact ⟨f, rfl, writeBackLoad_waiting h⟩
  | store f => exact absurd h (memWrite_ne_waiting s _ _)
  | halt f => cases h
  | add f | sub f | mul f | div f | and f | or f => cases h

/-- Everything a step that gives a next state can be. -/
theorem step_next {s t : State} (h : step s = .next t) :
    s.fault = none ∧ s.halted = false ∧
    ((s.fetch s.pc = none ∧ t = s.raiseFetchFault) ∨
     (∃ w e, s.fetch s.pc = some w ∧ decode w = .error e ∧ t = s.raiseUnknownOpcode w) ∨
     (∃ w i, s.fetch s.pc = some w ∧ decode w = .ok i ∧ exec i s = .next t)) := by
  unfold step at h
  split at h
  · cases h
  · split at h
    · cases h
    · next h1 h2 =>
      refine ⟨not_not.mp h1, by simpa using h2, ?_⟩
      split at h
      · next hf => cases h; exact .inl ⟨hf, rfl⟩
      · next w hf =>
        split at h
        · next e he => cases h; exact .inr (.inl ⟨w, e, hf, he, rfl⟩)
        · next i hi => exact .inr (.inr ⟨w, i, hf, hi, h⟩)

end Sys2Proof.Machine
end

