-- ==== Sys2Proof/Laws/Word.lean ====
section
/-! SUPPORT. The wrap of rule R7: it is a ring map, it inverts the signed reading, and it changes exactly the
integers that do not fit 32 signed bits. -/

namespace Sys2Proof

theorem wrap32_toInt (w : Word) : wrap32 w.toInt = w := BitVec.ofInt_toInt

theorem wrap32_add (x y : Int) : wrap32 (x + y) = wrap32 x + wrap32 y := BitVec.ofInt_add x y

theorem wrap32_mul (x y : Int) : wrap32 (x * y) = wrap32 x * wrap32 y := BitVec.ofInt_mul x y

theorem wrap32_neg (x : Int) : wrap32 (-x) = -wrap32 x := BitVec.ofInt_neg

theorem wrap32_sub (x y : Int) : wrap32 (x - y) = wrap32 x - wrap32 y := by
  rw [Int.sub_eq_add_neg, wrap32_add, wrap32_neg, BitVec.sub_eq_add_neg]

theorem toInt_bounds (w : Word) : -2 ^ 31 ≤ w.toInt ∧ w.toInt < 2 ^ 31 :=
  ⟨BitVec.le_toInt w, BitVec.toInt_lt⟩

/-- An integer is the signed value of its wrap exactly when it fits 32 signed bits. -/
theorem eq_toInt_wrap32 (n : Int) : n = (wrap32 n).toInt ↔ -2 ^ 31 ≤ n ∧ n < 2 ^ 31 := by
  constructor
  · intro h; rw [h]; exact toInt_bounds _
  · rintro ⟨h1, h2⟩
    rw [wrap32, BitVec.toInt_ofInt, Int.bmod_def]
    norm_num
    split <;> omega

theorem eq_zero_of_toInt {w : Word} (h : w.toInt = 0) : w = 0#32 := by
  rw [← wrap32_toInt w, h]; rfl

end Sys2Proof
end

