-- ==== Sys2Proof/Laws/Flags.lean ====
section
/-! SUPPORT. The flags of a result by cases (rule R101), and the shape of an ALU answer (R100). -/

namespace Sys2Proof.Machine

/-- One of M, Z, P, by the sign of the result. -/
theorem signFlag_cases (w : Word) :
    (w.toInt < 0 ∧ signFlag w = 0b0001#4) ∨ (w.toInt = 0 ∧ signFlag w = 0b0010#4) ∨
    (0 < w.toInt ∧ signFlag w = 0b0100#4) := by
  unfold signFlag
  rcases Int.lt_trichotomy w.toInt 0 with h | h | h
  · exact .inl ⟨h, if_pos h⟩
  · exact .inr (.inl ⟨h, by rw [if_neg (by omega), if_pos h]; rfl⟩)
  · exact .inr (.inr ⟨h, by rw [if_neg (by omega), if_neg (by omega)]; rfl⟩)

theorem flagsOf_fits {exact : Int} {w : Word} (h : exact = w.toInt) : flagsOf exact w = signFlag w := by
  unfold flagsOf; rw [if_pos h]; exact BitVec.or_zero

theorem flagsOf_overflows {exact : Int} {w : Word} (h : exact ≠ w.toInt) :
    flagsOf exact w = signFlag w ||| 0b1000#4 := by
  unfold flagsOf; rw [if_neg h]; rfl

theorem alu_eq_some {op : Opcode} {l r result : Word} {x : Flags} (h : alu op l r = some (result, x)) :
    ∃ exact, aluExact op l r = some exact ∧ result = wrap32 exact ∧ x = flagsOf exact result := by
  unfold alu at h
  cases he : aluExact op l r with
  | none => rw [he] at h; cases h
  | some e => rw [he] at h; cases h; exact ⟨e, rfl, rfl, rfl⟩

end Sys2Proof.Machine
end

