-- ==== Sys2Proof/Laws/Memory.lean ====
section
/-! SUPPORT. Storage: a read after a write, that a write keeps the canonical form and adds at most its own
address, and that two memories in canonical form which read alike are equal. -/

namespace Sys2Proof.Machine

@[simp] theorem read_nil (a : Nat) : Memory.read [] a = Memory.unlisted := rfl

theorem read_cons (b : Nat) (w : Word) (m : Memory) (a : Nat) :
    Memory.read ((b, w) :: m) a = if a = b then w else Memory.read m a := rfl

/-- An address below every listed one is unlisted. -/
theorem read_of_below {m : Memory} {a : Nat} (h : ∀ c ∈ m, a < c.1) : m.read a = Memory.unlisted := by
  induction m with
  | nil => rfl
  | cons c m ih =>
    obtain ⟨b, w⟩ := c
    have hb : a ≠ b := by have := h (b, w) (by simp); simp at this; omega
    rw [read_cons, if_neg hb]
    exact ih fun d hd => h d (by simp [hd])

theorem read_place (a : Nat) (v : Word) (rest : Memory) (b : Nat) (h : ∀ c ∈ rest, a < c.1) :
    (Memory.place a v rest).read b = if b = a then v else rest.read b := by
  unfold Memory.place
  by_cases hv : v = Memory.unlisted
  · rw [if_pos hv]
    by_cases hb : b = a
    · rw [if_pos hb, hb, hv]; exact read_of_below h
    · rw [if_neg hb]
  · rw [if_neg hv]; rfl

/-- Every other word reads as before, whatever the memory's form. -/
theorem read_write_other (m : Memory) (a b : Nat) (v : Word) (h : b ≠ a) :
    (m.write a v).read b = m.read b := by
  have hplace : ∀ rest : Memory, (Memory.place a v rest).read b = rest.read b := by
    intro rest
    unfold Memory.place
    split
    · rfl
    · rw [read_cons, if_neg h]
  induction m with
  | nil => exact hplace []
  | cons c m ih =>
    obtain ⟨k, w⟩ := c
    simp only [Memory.write]
    split
    · exact hplace _
    · split
      · next hak => rw [hplace, read_cons, if_neg (hak ▸ h)]
      · rw [read_cons, read_cons, ih]

theorem wf_nil : Memory.wf [] := ⟨List.Pairwise.nil, by simp⟩

theorem wf_tail {c : Nat × Word} {m : Memory} (h : Memory.wf (c :: m)) : m.wf :=
  ⟨(List.pairwise_cons.mp h.1).2, fun d hd => h.2 d (by simp [hd])⟩

theorem wf_head_below {c : Nat × Word} {m : Memory} (h : Memory.wf (c :: m)) : ∀ d ∈ m, c.1 < d.1 :=
  (List.pairwise_cons.mp h.1).1

/-- The word written reads back. -/
theorem read_write_same (m : Memory) (a : Nat) (v : Word) (h : m.wf) : (m.write a v).read a = v := by
  induction m with
  | nil =>
    exact (read_place a v [] a (by simp)).trans (if_pos rfl)
  | cons c m ih =>
    obtain ⟨k, w⟩ := c
    simp only [Memory.write]
    split
    · next hak =>
      have hb : ∀ d ∈ (k, w) :: m, a < d.1 := by
        intro d hd
        rcases List.mem_cons.mp hd with rfl | hd
        · exact hak
        · have := wf_head_below h d hd; simp at this; omega
      rw [read_place a v _ a hb, if_pos rfl]
    · split
      · next hak =>
        rw [read_place a v m a (fun d hd => by have := wf_head_below h d hd; simp at this; omega), if_pos rfl]
      · next hak => rw [read_cons, if_neg hak]; exact ih (wf_tail h)

theorem read_write (m : Memory) (a b : Nat) (v : Word) (h : m.wf) :
    (m.write a v).read b = if b = a then v else m.read b := by
  by_cases e : b = a
  · rw [if_pos e, e, read_write_same m a v h]
  · rw [if_neg e, read_write_other m a b v e]

/-- A write lists at most its own address beside those already listed. -/
theorem mem_write {m : Memory} {a : Nat} {v : Word} {c : Nat × Word} (h : c ∈ m.write a v) :
    c = (a, v) ∧ v ≠ Memory.unlisted ∨ c ∈ m := by
  have hplace : ∀ rest : Memory, c ∈ Memory.place a v rest → c = (a, v) ∧ v ≠ Memory.unlisted ∨ c ∈ rest := by
    intro rest hc
    unfold Memory.place at hc
    split at hc
    · exact .inr hc
    · next hv => exact (List.mem_cons.mp hc).imp (⟨·, hv⟩) id
  induction m with
  | nil => exact hplace [] h
  | cons d m ih =>
    obtain ⟨k, w⟩ := d
    simp only [Memory.write] at h
    split at h
    · exact hplace _ h
    · split at h
      · exact (hplace _ h).imp id (by intro hm; simp [hm])
      · rcases List.mem_cons.mp h with rfl | h
        · exact .inr (by simp)
        · exact (ih h).imp id (by intro hm; simp [hm])

theorem wf_place {a : Nat} {v : Word} {rest : Memory} (hr : rest.wf) (h : ∀ c ∈ rest, a < c.1) :
    (Memory.place a v rest).wf := by
  unfold Memory.place
  split
  · exact hr
  · next hv =>
    refine ⟨List.pairwise_cons.mpr ⟨h, hr.1⟩, fun c hc => ?_⟩
    rcases List.mem_cons.mp hc with rfl | hc
    · exact hv
    · exact hr.2 c hc

/-- A write keeps the canonical form. -/
theorem wf_write (m : Memory) (a : Nat) (v : Word) (h : m.wf) : (m.write a v).wf := by
  induction m with
  | nil => exact wf_place wf_nil (by simp)
  | cons c m ih =>
    obtain ⟨k, w⟩ := c
    have hk := wf_head_below h
    simp only [Memory.write]
    split
    · next hak =>
      refine wf_place h fun d hd => ?_
      rcases List.mem_cons.mp hd with rfl | hd
      · exact hak
      · have := hk d hd; simp at this; omega
    · split
      · next hak => exact wf_place (wf_tail h) fun d hd => by have := hk d hd; simp at this; omega
      · next hlt hne =>
        have ht := ih (wf_tail h)
        refine ⟨List.pairwise_cons.mpr ⟨fun d hd => ?_, ht.1⟩, fun d hd => ?_⟩
        · rcases mem_write hd with ⟨rfl, -⟩ | hd
          · simp; omega
          · exact hk d hd
        · rcases List.mem_cons.mp hd with rfl | hd
          · exact h.2 _ (by simp)
          · exact ht.2 d hd

/-- The canonical form is canonical: memories that read alike are the same list. -/
theorem eq_of_read_eq {m n : Memory} (hm : m.wf) (hn : n.wf) (h : ∀ a, m.read a = n.read a) : m = n := by
  have head_ne : ∀ {b : Nat} {w : Word} {l : Memory}, Memory.wf ((b, w) :: l) →
      Memory.read ((b, w) :: l) b ≠ Memory.unlisted := by
    intro b w l hl
    rw [read_cons, if_pos rfl]
    exact hl.2 (b, w) (by simp)
  have below : ∀ {a b : Nat} {w : Word} {l : Memory}, Memory.wf ((b, w) :: l) → a < b →
      Memory.read ((b, w) :: l) a = Memory.unlisted := by
    intro a b w l hl hab
    refine read_of_below fun d hd => ?_
    rcases List.mem_cons.mp hd with rfl | hd
    · exact hab
    · have := wf_head_below hl d hd; simp at this; omega
  induction m generalizing n with
  | nil =>
    cases n with
    | nil => rfl
    | cons c n => exact absurd (h c.1).symm (head_ne hn)
  | cons c m ih =>
    cases n with
    | nil => exact absurd (h c.1) (head_ne hm)
    | cons d n =>
      obtain ⟨b, w⟩ := c
      obtain ⟨e, x⟩ := d
      have hbe : b = e := by
        rcases Nat.lt_trichotomy b e with hlt | heq | hgt
        · exact absurd ((h b).trans (below hn hlt)) (head_ne hm)
        · exact heq
        · exact absurd ((h e).symm.trans (below hm hgt)) (head_ne hn)
      subst hbe
      have hwx : w = x := by have := h b; simpa [read_cons] using this
      subst hwx
      congr 1
      refine ih (wf_tail hm) (wf_tail hn) fun a => ?_
      by_cases hab : a = b
      · subst hab
        rw [read_of_below (wf_head_below hm), read_of_below (wf_head_below hn)]
      · have := h a
        rwa [read_cons, read_cons, if_neg hab, if_neg hab] at this

end Sys2Proof.Machine
end

