-- ==== Sys2Proof/Laws/PerInstr.lean ====
section
/-! SUPPORT. A statement per instruction: under the mask 0xFC000000 the word of an instruction, whatever its
fields, is the match value of its row of the opcode table (rule R58). -/

namespace Sys2Proof.Laws.OpcodeMatch

/-- R58: the match value of each row of the opcode table. -/
def matchValue : Opcode → Word
  | .halt => 0x00000000#32
  | .load => 0x04000000#32
  | .store => 0x08000000#32
  | .add => 0x0C000000#32
  | .sub => 0x14000000#32
  | .mul => 0x18000000#32
  | .div => 0x1C000000#32
  | .and => 0x20000000#32
  | .or => 0x24000000#32

def Statement (i : Instr) : Prop := encode i &&& 0xFC000000#32 = matchValue i.opcode

theorem matchValue_eq (op : Opcode) : matchValue op = BitVec.ofNat 32 (op.number * 2 ^ 26) := by
  cases op <;> decide

theorem of_number (i : Instr) : Statement i := (encode_and_mask i).trans (matchValue_eq i.opcode).symm

theorem halt (f : Fields) : Statement (.halt f) := of_number (.halt f)
theorem load (f : Fields) : Statement (.load f) := of_number (.load f)
theorem store (f : Fields) : Statement (.store f) := of_number (.store f)
theorem add (f : Fields) : Statement (.add f) := of_number (.add f)
theorem sub (f : Fields) : Statement (.sub f) := of_number (.sub f)
theorem mul (f : Fields) : Statement (.mul f) := of_number (.mul f)
theorem div (f : Fields) : Statement (.div f) := of_number (.div f)
theorem and (f : Fields) : Statement (.and f) := of_number (.and f)
theorem or (f : Fields) : Statement (.or f) := of_number (.or f)

end Sys2Proof.Laws.OpcodeMatch
end

