-- ==== Sys2Proof/Tests/Slice0.lean ====
section
/-! SUPPORT. Small tests of the model against the vectors of 95_test_vectors.md and the words of R55, and for
every obligation with hypotheses a witness that meets them. Every expected value is the spec's. -/

namespace Sys2Proof.Tests

open Sys2Proof Sys2Proof.Machine

/-- The vectors of §2.4 to §2.6 run at address 20, with predicate and flags as listed, other registers 0. -/
def at20 (w : Nat) (regs : List (RegNum × Word)) (flags : Flags := 15#4) : State :=
  let s : State := { State.reset with pc := 20#32, halted := false, flags := flags }
  (regs.foldl (fun s p => s.writeReg p.1 p.2) s).withMem (Memory.write [] 20 (BitVec.ofNat 32 w))

/-- The next state of an outcome, if it is one. -/
def nextOf : Host.Outcome State Fault Refusal → Option State
  | .next t => some t
  | _ => none

theorem eq_next_of_isSome {o : Host.Outcome State Fault Refusal} (h : (nextOf o).isSome = true) :
    o = .next ((nextOf o).get h) := by
  cases o with
  | next t => rfl
  | fault r => cases h
  | refused r => cases h

def after (s : State) : Option State := nextOf (step s)

def afterExec (i : Instr) (s : State) : Option State := nextOf (exec i s)

theorem step_of_after {s : State} (h : (after s).isSome = true) : step s = .next ((after s).get h) :=
  eq_next_of_isSome h

theorem exec_of_after {i : Instr} {s : State} (h : (afterExec i s).isSome = true) :
    exec i s = .next ((afterExec i s).get h) :=
  eq_next_of_isSome h

/-! ### WellFormed: the one check, at its bounds -/

theorem test_wellFormed_offset_bounds :
    Instr.WellFormed (.add ⟨15#4, 1, 2, 3, 511⟩) ∧ Instr.WellFormed (.add ⟨15#4, 1, 2, 3, -512⟩) := by decide

theorem test_illFormed_offset_high : ¬ Instr.WellFormed (.load ⟨15#4, 1, 2, 3, 512⟩) := by decide

theorem test_illFormed_offset_low : ¬ Instr.WellFormed (.store ⟨15#4, 1, 2, 3, -513⟩) := by decide

/-! ### Decoding: one word per constructor, written out field by field as R55 lays them -/

theorem test_decode_halt :
    decodeTableWord 32 0b00000011110101011001110000001001 = some (.halt ⟨15#4, 5, 6, 7, 9⟩) := by decide
theorem test_decode_load :
    decodeTableWord 32 0b00000111110001000011111000000000 = some (.load ⟨15#4, 1, 0, 15, -512⟩) := by decide
theorem test_decode_store :
    decodeTableWord 32 0b00001011110001001000111111111111 = some (.store ⟨15#4, 1, 2, 3, -1⟩) := by decide
theorem test_decode_add :
    decodeTableWord 32 0b00001101001111000011111111111110 = some (.add ⟨4#4, 15, 0, 15, -2⟩) := by decide
theorem test_decode_sub :
    decodeTableWord 32 0b00010111110000001100000000001010 = some (.sub ⟨15#4, 0, 3, 0, 10⟩) := by decide
theorem test_decode_mul :
    decodeTableWord 32 0b00011011110011000100100000000000 = some (.mul ⟨15#4, 3, 1, 2, 0⟩) := by decide
theorem test_decode_div :
    decodeTableWord 32 0b00011100100011001000000000000000 = some (.div ⟨2#4, 3, 2, 0, 0⟩) := by decide
theorem test_decode_and :
    decodeTableWord 32 0b00100011110011000100001111111100 = some (.and ⟨15#4, 3, 1, 0, -4⟩) := by decide
theorem test_decode_or :
    decodeTableWord 32 0b00100111111111111111111111111111 = some (.or ⟨15#4, 15, 15, 15, -1⟩) := by decide

/-- §2.2, last four rows: the opcode numbers 4, 10, 32 and 63 are unknown. -/
theorem test_decode_illegal :
    [0x10000000, 0x28000000, 0x80000000, 0xFFFFFFFF].map (decodeTableWord 32) = [none, none, none, none] := by
  decide

/-- §2.2: `encode` gives back the listed words. -/
theorem test_encode_listed :
    encode (.store ⟨15#4, 1, 0, 0, 511⟩) = 0x0BC401FF#32 ∧ encode (.add ⟨15#4, 1, 0, 0, -512⟩) = 0x0FC40200#32 ∧
    encode (.halt ⟨0#4, 0, 6, 1, -352⟩) = 0x000186A0#32 := by decide

/-! ### BitField codec (§2.1) -/

def field (a b : Nat) (h : a ≤ b := by decide) (h' : b ≤ 31 := by decide) : BitField := ⟨a, b, h, h'⟩

theorem test_masks :
    (field 26 31).mask = 0xFC000000#32 ∧ (field 26 31).inverseMask = 0x03FFFFFF#32 ∧
    (field 3 5).mask = 0x00000038#32 ∧ (field 0 9).inverseMask = 0xFFFFFC00#32 := by decide

theorem test_insert :
    (field 4 7).insert 0xA 0xFFFFFFFF#32 = 0xFFFFFFAF#32 ∧ (field 0 9).insert (-512) 0#32 = 0x00000200#32 ∧
    (field 0 9).insert 1024 0xFFFFFFFF#32 = 0xFFFFFC00#32 ∧
    (field 0 31).insert 0x12345678 0xFFFFFFFF#32 = 0x12345678#32 := by decide

theorem test_extract :
    (field 4 7).extract 0xFFFFFFAF#32 = 10 ∧ (field 31 31).extract 0x80000000#32 = 1 := by decide

theorem test_extractSigned :
    (field 3 5).extractSigned 0x00000038#32 = some (-1) ∧ (field 3 6).extractSigned 0x00000038#32 = some 7 ∧
    (field 0 31).extractSigned 0xFFFFFFFF#32 = some (-1) ∧ (field 31 31).extractSigned 0#32 = none := by decide

/-! ### The predicate test (§2.3) -/

theorem test_executes :
    Executes 0b1111#4 0b0000#4 ∧ ¬ Executes 0b0000#4 0b1111#4 ∧ Executes 0b0110#4 0b0100#4 ∧
    ¬ Executes 0b0111#4 0b0000#4 := by decide

/-! ### The instructions (§2.4, §2.5, §2.6) -/

theorem test_add : (after (at20 0x0FC48FFE [(2, 5#32), (3, 7#32)])).map
    (fun t => (t.readReg 1, t.flags, t.pc)) = some (10#32, 0b0100#4, 21#32) := by decide
theorem test_add_wraps :
    alu .add 0x7FFFFFFF#32 1#32 = some (0x80000000#32, 0b1001#4) ∧
    alu .add 0x80000000#32 0x80000000#32 = some (0#32, 0b1010#4) := by decide

theorem test_sub_discards_into_r0 : (after (at20 0x17C0C00A [(3, 7#32)])).map
    (fun t => (t.readReg 0, t.readReg 3, t.flags, t.pc)) = some (0#32, 7#32, 0b0001#4, 21#32) := by decide
theorem test_sub_overflows :
    alu .sub 0x80000000#32 1#32 = some (0x7FFFFFFF#32, 0b1100#4) ∧
    alu .sub 0#32 0x80000000#32 = some (0x80000000#32, 0b1001#4) := by decide

theorem test_mul : (after (at20 0x1BCC4800 [(1, 0xFFFFFFFA#32), (2, 7#32)])).map
    (fun t => (t.readReg 3, t.flags)) = some (0xFFFFFFD6#32, 0b0001#4) := by decide
theorem test_mul_low_word :
    alu .mul 0x0000B505#32 0x0000B505#32 = some (0x80001219#32, 0b1001#4) ∧
    alu .mul 0xFFFF0000#32 0x00008000#32 = some (0x80000000#32, 0b0001#4) := by decide

theorem test_div_floors :
    alu .div 0xFFFFFFF9#32 2#32 = some (0xFFFFFFFC#32, 0b0001#4) ∧
    alu .div 7#32 0xFFFFFFFE#32 = some (0xFFFFFFFC#32, 0b0001#4) ∧
    alu .div 0xFFFFFFF9#32 0xFFFFFFFE#32 = some (3#32, 0b0100#4) ∧
    alu .div 0x80000000#32 0xFFFFFFFF#32 = some (0x80000000#32, 0b1001#4) := by decide
theorem test_div_by_zero : (after (at20 0x1FC84C01 [(1, 9#32), (3, 0xFFFFFFFF#32)])).map
    (fun t => (t.fault, t.pc, t.readReg 2, t.flags)) =
      some (some ⟨.divisionByZero, .fetch, 20#32, 0x1FC84C01#32⟩, 20#32, 0#32, 0b1111#4) := by decide

theorem test_and : (after (at20 0x23CC43FC [(1, 0x12345677#32)])).map
    (fun t => (t.readReg 3, t.flags)) = some (0x12345674#32, 0b0100#4) := by decide
theorem test_or : (after (at20 0x27CC4001 [(1, 0x80000000#32)])).map
    (fun t => (t.readReg 3, t.flags)) = some (0x80000001#32, 0b0001#4) := by decide

theorem test_load_console_into_r0 :
    (after ((at20 0x07C001FE []).withInStream [6#32, 0xFFFFFFF9#32])).map
      (fun t => (t.readReg 0, t.inStream, t.pc)) = some (0#32, [0xFFFFFFF9#32], 21#32) := by decide
theorem test_load_out_of_range : (after (at20 0x07C403FF [])).map (fun t => (t.fault, t.pc)) =
    some (some ⟨.memoryFault, .load, 0xFFFFFFFF#32, 0x07C403FF#32⟩, 20#32) := by decide

theorem test_store_r15 : (after (at20 0x0BFC3C04 [])).map (fun t => (t.mem.read 24, t.pc)) =
    some (21#32, 21#32) := by decide
theorem test_store_console : (after (at20 0x0BC401FF [(1, 42#32)])).map
    (fun t => (t.outStream, t.mem.read 511, t.flags)) = some ([42#32], 0#32, 0b0100#4) := by decide

theorem test_halt_ignores_fields : (after (at20 0x03D59C09 [(5, 1#32)])).map
    (fun t => (t.halted, t.readReg 5, t.pc, t.flags)) = some (true, 1#32, 21#32, 0b0010#4) := by decide
theorem test_halt_skipped : (after (at20 0x00800000 [] 0b0100#4)).map
    (fun t => (t.halted, t.pc, t.flags)) = some (false, 21#32, 0b0100#4) := by decide

theorem test_r15_reads_own_address : (after (at20 0x0FD7FC00 [])).map (fun t => t.readReg 5) =
    some 40#32 := by decide
theorem test_jump_backward : (after (at20 0x0D3C3FFE [] 0b0100#4)).map (fun t => (t.pc, t.flags)) =
    some (18#32, 0b0100#4) := by decide

/-- §2.6: a fetch from the console address faults and takes no word. -/
theorem test_fetch_console : (after ((at20 0 [(15, 510#32)]).withInStream [1#32])).map
    (fun t => (t.fault, t.inStream)) = some (some ⟨.memoryFault, .fetch, 510#32, 0#32⟩, [1#32]) := by decide

/-- §2.6: the predicate NEVER does not save an illegal word. -/
theorem test_unknown_opcode : (after (at20 0x10000000 [])).map (fun t => t.fault) =
    some (some ⟨.unknownOpcode, .fetch, 20#32, 0x10000000#32⟩) := by decide

/-- The first instruction after reset, placed by `withFetchWord`: `ADD r1,r0,r0[5]` of program P2. -/
theorem test_first_instruction : (after (State.reset.withFetchWord 32 0x0FC40005)).map
    (fun t => (t.pc, t.readReg 1, t.flags)) = some (1#32, 5#32, 0b0100#4) := by decide

/-- R72, R74: `/ZP` is 0b0110; `JUMP skip` of S4 at address 1 is the word 0x0FFC3C02. -/
theorem test_assembly_forms :
    suffixPredicate [.P, .Z] = 0b0110#4 ∧ suffixPredicate [] = 0b1111#4 ∧
    (symbolicJump always 3 1).map encode = some 0x0FFC3C02#32 ∧ dataWord (-1) = some 0xFFFFFFFF#32 := by decide

/-! ### Witnesses: what each obligation assumes can be met, clause by clause at its bounds -/

theorem witness_InsertReplacesFieldBits :
    (3 < 32 ∧ ¬ ((field 4 7).fromBit ≤ 3 ∧ 3 ≤ (field 4 7).toBit)) ∧
    (7 < 32 ∧ (field 4 7).fromBit ≤ 7 ∧ 7 ≤ (field 4 7).toBit) := by decide
theorem witness_ExtractAfterInsert : 15 < 2 ^ (field 4 7).width ∧ 2 ^ 32 - 1 < 2 ^ (field 0 31).width := by
  decide
theorem witness_SignedExtractionCopiesTopBit : (field 31 31).width < 2 ∧ 2 ≤ (field 3 4).width := by decide
theorem witness_EncodeIsSumOfFields : Instr.WellFormed (.mul ⟨15#4, 15, 15, 15, -512⟩) := by decide
theorem witness_CodecRoundTrips :
    Instr.WellFormed (.div ⟨0#4, 0, 0, 0, 511⟩) ∧ decode 0x27FFFFFF#32 = .ok (.or ⟨15#4, 15, 15, 15, -1⟩) :=
  ⟨by decide, rfl⟩
theorem witness_StartSetsPcAndRuns : Halted State.reset ∧ ¬ Halted (at20 0 []) := by decide
theorem witness_HostLoadsOnlyWhileStopped :
    (State.reset.mem.wf ∧ ¬ Running State.reset ∧ 511 < State.reset.config.memWords) ∧
    State.reset.config.memWords ≤ 512 ∧ Running (at20 0 []) ∧ (at20 0 []).mem.wf := by decide
theorem witness_ImageWordKAtAddressK :
    State.reset.mem.wf ∧ (State.reset.hostLoadImage 509 [1#32, 2#32, 3#32]).isSome = true := by decide
theorem witness_InRangeSignedIsUnsigned :
    Config.standard.Valid ∧ InRange Config.standard 511#32 ∧ ¬ InRange Config.standard 512#32 ∧
    (0xFFFFFFFF#32).getLsbD 31 = true := by decide
theorem witness_AluFlagsAreOneOfSix :
    alu .add 0x80000000#32 0x80000000#32 = some (0#32, 0b1010#4) ∧
    alu .halt 123#32 456#32 = some (0#32, 0b0010#4) := by decide
theorem witness_SkippedInstructionOnlyAdvances :
    ¬ Executes (Instr.div ⟨2#4, 1, 1, 0, 0⟩).fields.pred (at20 0 [] 0b0100#4).flags := by decide
theorem witness_ExecutedInstructionWritesFlags :
    ∃ t, (at20 0 []).fault = none ∧ Executes (Instr.halt ⟨15#4, 0, 0, 0, 0⟩).fields.pred (at20 0 []).flags ∧
      exec (.halt ⟨15#4, 0, 0, 0, 0⟩) (at20 0 []) = .next t ∧ t.fault = none :=
  ⟨_, by decide, by decide, exec_of_after (by decide), by decide⟩
theorem witness_OnlyTargetAndPcChange :
    ∃ t, exec (.store ⟨15#4, 1, 0, 0, 3⟩) (at20 0 []) = .next t ∧ (1 : RegNum) ≠ 15 ∧
      (Instr.store ⟨15#4, 1, 0, 0, 3⟩).opcode = .store :=
  ⟨_, exec_of_after (by decide), by decide, rfl⟩

/-- The hypothesis of AddCompletes, SubCompletes, MulCompletes, AndCompletes, OrCompletes and HaltCompletes, for
an ALWAYS predicate against empty flags and a one-bit predicate. -/
theorem witness_executes :
    Executes (⟨15#4, 15, 1, 2, -512⟩ : Fields).pred (at20 0 [] 0#4).flags ∧
    Executes (⟨1#4, 0, 15, 15, 511⟩ : Fields).pred (at20 0 [] 0b1001#4).flags := by decide
theorem witness_DivCompletes :
    Executes (⟨15#4, 2, 1, 0, 2⟩ : Fields).pred (at20 0 []).flags ∧
    0 < (wrap32 (((at20 0 []).readReg 0).toInt + 2)).toInt ∧
    (wrap32 (((at20 0 []).readReg 0).toInt + (-1))).toInt < 0 ∧
    wrap32 (((at20 0 [(3, 0xFFFFFFFF#32)]).readReg 3).toInt + 1) = 0#32 := by decide
theorem witness_DivByZeroFaults :
    Running (at20 0x1FC84C01 [(3, 0xFFFFFFFF#32)]) ∧
    (at20 0x1FC84C01 [(3, 0xFFFFFFFF#32)]).fetch 20#32 = some 0x1FC84C01#32 ∧
    decode 0x1FC84C01#32 = .ok (.div ⟨15#4, 2, 1, 3, 1⟩) ∧
    Executes 15#4 (at20 0 []).flags ∧
    wrap32 (((at20 0x1FC84C01 [(3, 0xFFFFFFFF#32)]).readReg 3).toInt + 1) = 0#32 :=
  ⟨by decide, by decide, rfl, by decide, by decide⟩
theorem witness_DivByZeroFaults_record :
    ∃ t r, step (at20 0x1FC84C01 [(3, 0xFFFFFFFF#32)]) = .next t ∧ t.fault = some r ∧
      r.cause = .divisionByZero :=
  ⟨_, ⟨.divisionByZero, .fetch, 20#32, 0x1FC84C01#32⟩, step_of_after (by decide), by decide, rfl⟩
theorem witness_CompareOrdersSignedValues :
    -2 ^ 31 ≤ ((at20 0 [(1, 0x80000000#32)]).readReg 1).toInt - ((at20 0 []).readReg 2).toInt ∧
    ((at20 0 [(1, 0x7FFFFFFF#32)]).readReg 1).toInt - ((at20 0 []).readReg 2).toInt < 2 ^ 31 := by decide
theorem witness_LoadFromStorageCompletes :
    Executes (⟨15#4, 15, 0, 15, 3⟩ : Fields).pred (at20 0 []).flags ∧
    IsStorage (at20 0 []).config (effectiveAddress ⟨15#4, 15, 0, 15, 3⟩ (at20 0 [])) ∧
    IsStorage (at20 0 []).config (effectiveAddress ⟨15#4, 1, 0, 0, 509⟩ (at20 0 [])) := by decide
theorem witness_LoadFromConsoleTakesWordOrWaits :
    Executes (⟨15#4, 0, 0, 0, 510⟩ : Fields).pred (at20 0 []).flags ∧
    (effectiveAddress ⟨15#4, 0, 0, 0, 510⟩ (at20 0 [])).toNat = (at20 0 []).config.ioIn ∧
    (at20 0 []).inStream = [] ∧ ((at20 0 []).withInStream [6#32]).inStream = [6#32] := by decide
theorem witness_LoadOutsideStorageFaults :
    (at20 0 []).config.Valid ∧ Executes (⟨15#4, 1, 0, 0, 511⟩ : Fields).pred (at20 0 []).flags ∧
    (effectiveAddress ⟨15#4, 1, 0, 0, 511⟩ (at20 0 [])).toNat = (at20 0 []).config.ioOut ∧
    ¬ InRange (at20 0 []).config (effectiveAddress ⟨15#4, 1, 2, 0, 0⟩ (at20 0 [(2, 512#32)])) ∧
    ¬ InRange (at20 0 []).config (effectiveAddress ⟨15#4, 1, 0, 0, -1⟩ (at20 0 [])) := by decide
theorem witness_StoreToStorageCompletes :
    (at20 0 []).mem.wf ∧ Executes (⟨15#4, 15, 0, 15, 4⟩ : Fields).pred (at20 0 []).flags ∧
    IsStorage (at20 0 []).config (effectiveAddress ⟨15#4, 15, 0, 15, 4⟩ (at20 0 [])) := by decide
theorem witness_StoreToConsoleAppends :
    Executes (⟨15#4, 1, 0, 0, 511⟩ : Fields).pred (at20 0 []).flags ∧
    (effectiveAddress ⟨15#4, 1, 0, 0, 511⟩ (at20 0 [])).toNat = (at20 0 []).config.ioOut := by decide
theorem witness_StoreOutsideStorageFaults :
    (at20 0 []).config.Valid ∧ Executes (⟨15#4, 1, 0, 0, 510⟩ : Fields).pred (at20 0 []).flags ∧
    (effectiveAddress ⟨15#4, 1, 0, 0, 510⟩ (at20 0 [])).toNat = (at20 0 []).config.ioIn ∧
    ¬ InRange (at20 0 []).config (effectiveAddress ⟨15#4, 1, 0, 0, -512⟩ (at20 0 [])) := by decide
theorem witness_FetchSeesLastStore :
    (at20 0 []).mem.wf ∧ Executes (⟨15#4, 1, 0, 15, 1⟩ : Fields).pred (at20 0 []).flags ∧
    IsStorage (at20 0 []).config (effectiveAddress ⟨15#4, 1, 0, 15, 1⟩ (at20 0 [])) ∧
    21#32 = effectiveAddress ⟨15#4, 1, 0, 15, 1⟩ (at20 0 []) ∧
    22#32 ≠ effectiveAddress ⟨15#4, 1, 0, 15, 1⟩ (at20 0 []) := by decide
theorem witness_AluJumpGoesToResult :
    Opcode.add ∈ [Opcode.add, .sub, .mul, .div, .and, .or] ∧ (⟨15#4, 15, 0, 15, 2⟩ : Fields).target = 15 ∧
    Executes (⟨15#4, 15, 0, 15, 2⟩ : Fields).pred (at20 0 []).flags ∧
    ¬ Executes (⟨2#4, 15, 0, 15, 2⟩ : Fields).pred (at20 0 [] 4#4).flags ∧
    alu .add ((at20 0 []).readReg 0) (wrap32 (((at20 0 []).readReg 15).toInt + 2)) =
      some (22#32, 0b0100#4) ∧
    alu .div 1#32 0#32 = none := by decide
theorem witness_SymbolicFormsReachLabel :
    (at20 0 []).pc = BitVec.ofNat 32 20 ∧ (symbolicJump 15#4 531 20).isSome = true ∧
    symbolicLoad 15#4 1 0 20 = some (.load (pcRelative 15#4 1 (-20))) ∧
    symbolicStore 15#4 1 25 20 = some (.store (pcRelative 15#4 1 5)) ∧
    symbolicJump 15#4 532 20 = none ∧ Executes 15#4 (at20 0 []).flags := by decide
theorem witness_StepRunsDecodedInstruction :
    Running (at20 0x1BCC4800 []) ∧ IsStorage (at20 0x1BCC4800 []).config (at20 0x1BCC4800 []).pc ∧
    decode ((at20 0x1BCC4800 []).mem.read (at20 0x1BCC4800 []).pc.toNat) = .ok (.mul ⟨15#4, 3, 1, 2, 0⟩) :=
  ⟨by decide, by decide, rfl⟩
theorem witness_StoppedMachineTakesNoStep :
    Halted State.reset ∧ Faulted (at20 0 []).raiseFetchFault := by decide
theorem witness_WaitingMachineResumes : Waiting (at20 0x07C401FE []) := by
  show step (at20 0x07C401FE []) = _
  rfl
theorem witness_SmallDataWordIsSkipped :
    Running (at20 0x003FFFFF []) ∧ (at20 0x003FFFFF []).fetch (at20 0x003FFFFF []).pc = some 0x003FFFFF#32 ∧
    (0x003FFFFF#32).toNat < 2 ^ 22 := by decide
theorem witness_OnlyHaltStopsTheMachine : ∃ t, step (at20 0x03C00000 []) = .next t ∧ t.halted = true :=
  ⟨_, step_of_after (by decide), by decide⟩
theorem witness_OnlyStoreChangesStorage :
    ∃ t, step (at20 0x0BFC3C04 []) = .next t ∧ t.mem.read 24 ≠ (at20 0x0BFC3C04 []).mem.read 24 :=
  ⟨_, step_of_after (by decide), by decide⟩

/-- The one hypothesis of ConsoleMovesInOrder and of the first clause of OutputIsUnobservable, met by a step of
each kind. -/
theorem witness_step_next :
    (∃ t, step (at20 0x0BC401FF [(1, 42#32)]) = .next t ∧ t.outStream = [42#32]) ∧
    ∃ t, step ((at20 0x07C401FE []).withInStream [6#32]) = .next t ∧ t.inStream = [] :=
  ⟨⟨_, step_of_after (by decide), by decide⟩, ⟨_, step_of_after (by decide), by decide⟩⟩
theorem witness_OutputIsUnobservable_stopped :
    step State.reset = .fault .halted ∧ step (at20 0x07C401FE []) = .fault .consoleInputEmpty := ⟨rfl, rfl⟩

/-- The jump with the predicate P, against flags that only start it. -/
theorem witness_JumpToSelfRunsForever :
    Running (at20 0x0D3C3C00 [] 0b1100#4) ∧
    (at20 0x0D3C3C00 [] 0b1100#4).fetch (at20 0x0D3C3C00 [] 0b1100#4).pc = some 0x0D3C3C00#32 ∧
    decode 0x0D3C3C00#32 = .ok (.add ⟨0b0100#4, 15, 0, 15, 0⟩) ∧
    Executes 0b0100#4 (at20 0x0D3C3C00 [] 0b1100#4).flags ∧
    Executes 0b0100#4 (if (at20 0x0D3C3C00 [] 0b1100#4).pc = 0#32 then 0b0010#4 else 0b0100#4) :=
  ⟨by decide, by decide, rfl, by decide, by decide⟩

/-- The same at address 0, where the jump leaves Z. -/
theorem witness_JumpToSelfRunsForever_at_zero :
    Executes 0b0010#4 (if State.reset.pc = 0#32 then 0b0010#4 else 0b0100#4) ∧
    ¬ Executes 0b0100#4 (if State.reset.pc = 0#32 then 0b0010#4 else 0b0100#4) := by decide
theorem witness_EndedRunIsFinal : ¬ Running (runLoop 1 (at20 0x03C00000 [])) := by decide
theorem witness_FetchOutsideStorageFaults :
    Running (at20 0 [(15, 512#32)]) ∧ ¬ IsStorage (at20 0 []).config 512#32 ∧
    ¬ IsStorage (at20 0 []).config 510#32 ∧ ¬ IsStorage (at20 0 []).config 511#32 ∧
    IsStorage (at20 0 []).config 509#32 ∧ ¬ IsStorage (at20 0 []).config 0xFFFFFFFF#32 := by decide
theorem witness_UnknownOpcodeFaults :
    Running (at20 0x10000000 []) ∧ (at20 0x10000000 []).fetch 20#32 = some 0x10000000#32 ∧
    (0x10000000#32).toNat / 2 ^ 26 = 4 ∧ 10 ≤ (0x28000000#32).toNat / 2 ^ 26 := by decide

/-- The hypotheses of FaultsArePrecise and FaultRecordTellsTheTruth. -/
theorem witness_FaultsArePrecise :
    ∃ t r, step (at20 0x0BC401FE []) = .next t ∧ t.fault ≠ none ∧ t.fault = some r :=
  ⟨_, ⟨.memoryFault, .store, 510#32, 0x0BC401FE#32⟩, step_of_after (by decide), by decide, by decide⟩

/-- The hypotheses of StepKeepsInvariant and ResetMeetsInvariant. -/
theorem witness_StepKeepsInvariant :
    Config.standard.Valid ∧ Config.Valid ⟨2, 0, 1⟩ ∧
      Inv (at20 0x0FC48FFE []) ∧ ∃ t, step (at20 0x0FC48FFE []) = .next t :=
  ⟨by decide, by decide,
    { config := by decide, memory := by decide, listed := by decide, flags := .inr (by decide),
      apart := by decide, record := fun r h => by cases h },
    ⟨_, step_of_after (by decide)⟩⟩
theorem witness_ReachableStatesMeetInvariant :
    Reachable ((State.resetWith Config.standard).start 0#32) ∧ Inv State.reset ∧ Config.standard.Valid ∧
    Move State.reset (State.reset.supply [1#32]) ∧ Move State.reset (State.reset.start 7#32) ∧
    Move State.reset State.reset.hostReset ∧ ∃ t, Move State.reset t ∧ State.reset.hostLoad 511 9#32 = some t :=
  ⟨.move (.reset _ (by decide)) (.start 0#32 rfl),
    { config := by decide, memory := by decide, listed := by decide, flags := .inr rfl,
      apart := by decide, record := fun r h => by cases h },
    by decide, .supply [1#32] rfl, .start 7#32 rfl, .reset rfl, ⟨_, .load 511 9#32 rfl, rfl⟩⟩

end Sys2Proof.Tests
end

/-! ## Every step keeps the invariant

What each state operation needs to keep `Inv`, then what a write-back, an executed instruction and a step
need. Each layer goes through the one before it and the inversion lemmas of Laws/. -/

namespace Sys2Proof.Machine

/-! ### The flags and the storage addresses -/

/-- R17: a sign flag with or without V is one of the six values. -/
theorem isResultFlags_flagsOf (exact : Int) (w : Word) : IsResultFlags (flagsOf exact w) := by
  by_cases hfit : exact = w.toInt
  · rw [flagsOf_fits hfit, IsResultFlags]
    obtain ⟨-, h⟩ | ⟨-, h⟩ | ⟨-, h⟩ := signFlag_cases w <;> simp [h]
  · rw [flagsOf_overflows hfit, IsResultFlags]
    obtain ⟨-, h⟩ | ⟨-, h⟩ | ⟨-, h⟩ := signFlag_cases w <;> simp [h]

theorem isResultFlags_of_alu {op : Opcode} {left right result : Word} {x : Flags}
    (h : alu op left right = some (result, x)) : IsResultFlags x := by
  obtain ⟨exact, -, -, rfl⟩ := alu_eq_some h
  exact isResultFlags_flagsOf exact result

/-- R31: an address in range as a signed word keys a cell of 0 to N-1. -/
theorem toNat_lt_of_inRange {c : Config} {a : Word} (h : InRange c a) : a.toNat < c.memWords := by
  obtain ⟨hnonneg, hlt⟩ := h
  have hsame : a.toInt = a.toNat := BitVec.toInt_eq_toNat_of_lt (BitVec.toInt_pos_iff.mp hnonneg)
  omega

/-! ### The state operations -/

/-- The invariant does not read the registers or the console streams. -/
theorem inv_congr {s t : State} (h : Inv s) (hconfig : t.config = s.config) (hmem : t.mem = s.mem)
    (hflags : t.flags = s.flags) (hhalted : t.halted = s.halted) (hfault : t.fault = s.fault) : Inv t where
  config := hconfig ▸ h.config
  memory := hmem ▸ h.memory
  listed := by rw [hmem, hconfig]; exact h.listed
  flags := hflags ▸ h.flags
  apart := by rw [hfault, hhalted]; exact h.apart
  record := by rw [hfault]; exact h.record

theorem inv_advancePc {s : State} (h : Inv s) : Inv s.advancePc := inv_congr h rfl rfl rfl rfl rfl

theorem inv_writeReg {s : State} (h : Inv s) (d : RegNum) (v : Word) : Inv (s.writeReg d v) :=
  inv_congr h (by simp) (by simp) (by simp) (by simp) (by simp)

theorem inv_withInStream {s : State} (h : Inv s) (vs : List Word) : Inv (s.withInStream vs) :=
  inv_congr h rfl rfl rfl rfl rfl

theorem inv_withOutStream {s : State} (h : Inv s) (vs : List Word) : Inv (s.withOutStream vs) :=
  inv_congr h rfl rfl rfl rfl rfl

theorem inv_withFlags {s : State} {x : Flags} (h : Inv s) (hx : IsResultFlags x) : Inv (s.withFlags x) :=
  { h with flags := .inl hx }

theorem inv_withHalted {s : State} (h : Inv s) (hfault : s.fault = none) (b : Bool) :
    Inv (s.withHalted b) :=
  { h with apart := fun hne => absurd hfault hne }

theorem inv_withMem_write {s : State} {a : Nat} (h : Inv s) (ha : a < s.config.memWords) (v : Word) :
    Inv (s.withMem (s.mem.write a v)) :=
  { h with
    memory := wf_write s.mem a v h.memory
    listed := fun c hc => by
      obtain ⟨rfl, -⟩ | hold := mem_write hc
      · exact ha
      · exact h.listed c hold }

/-- R19, R141: a fault record of legal kind is taken by a machine that is not Halted. -/
theorem inv_raise {s : State} {r : FaultRecord} (h : Inv s) (hrun : s.halted = false)
    (hkind : r.cause ≠ .memoryFault → r.kind = .fetch)
    (hinfo : r.cause = .memoryFault → r.kind = .fetch → r.info = 0#32) : Inv (s.raise r) :=
  { h with
    apart := fun _ => hrun
    record := fun q hq => by
      obtain rfl : r = q := Option.some.inj hq
      exact ⟨hkind, hinfo⟩ }

theorem inv_raiseFetchFault {s : State} (h : Inv s) (hrun : s.halted = false) : Inv s.raiseFetchFault :=
  inv_raise h hrun (by simp) (by simp)

theorem inv_raiseUnknownOpcode {s : State} (h : Inv s) (hrun : s.halted = false) (w : Word) :
    Inv (s.raiseUnknownOpcode w) :=
  inv_raise h hrun (by simp) (by simp)

theorem inv_raiseDivisionByZero {s : State} (h : Inv s) (hrun : s.halted = false) (i : Instr) :
    Inv (s.raiseDivisionByZero i) :=
  inv_raise h hrun (by simp) (by simp)

/-- R141: the record of a data access names its instruction word, so its kind must not be that of a fetch. -/
theorem inv_raiseDataFault {s : State} {k : AccessKind} (h : Inv s) (hrun : s.halted = false)
    (hk : k ≠ .fetch) (ea : Word) (i : Instr) : Inv (s.raiseDataFault k ea i) :=
  inv_raise h hrun (by simp) fun _ hfetch => absurd hfetch hk

/-! ### The accesses and the write-backs -/

theorem inv_memRead_done {s s' : State} {ea v : Word} (h : Inv s) (hr : s.memRead ea = .done (v, s')) :
    Inv s' := by
  obtain ⟨-, rest, -, rfl⟩ | ⟨-, -, -, -, rfl⟩ := memRead_done hr
  · exact inv_withInStream h rest
  · exact h

theorem inv_memWrite_done {s s' : State} {ea v : Word} (h : Inv s) (hw : s.memWrite ea v = .done s') :
    Inv s' := by
  obtain ⟨-, rfl⟩ | ⟨-, -, hrange, rfl⟩ := memWrite_done hw
  · exact inv_withOutStream h _
  · exact inv_withMem_write h (toNat_lt_of_inRange hrange) v

/-- R87: every write-back keeps the invariant of a machine that is not Faulted; HALT alone needs that. -/
theorem inv_writeBackOf_done {i : Instr} {result : Word} {s t : State} (h : Inv s) (hfault : s.fault = none)
    (hw : writeBackOf i result s = .done t) : Inv t := by
  obtain ⟨f, v, s', -, hread, rfl⟩ | ⟨f, -, hwrite⟩ | ⟨f, -, rfl⟩ | ⟨rfl, -⟩ := writeBackOf_done hw
  · exact inv_writeReg (inv_memRead_done h hread) f.target v
  · exact inv_memWrite_done h hwrite
  · exact inv_withHalted h hfault true
  · exact inv_writeReg h i.fields.target result

/-- R141: a write-back that faults reports a load or a store. -/
theorem writeBackOf_fault_kind {i : Instr} {result : Word} {s : State} {k : AccessKind}
    (h : writeBackOf i result s = .memoryFault k) : k ≠ .fetch := by
  obtain ⟨f, -, hread⟩ | ⟨f, -, hwrite⟩ := writeBackOf_fault h
  · simp [(memRead_fault hread).1]
  · simp [(memWrite_fault hwrite).1]

/-! ### The instructions and the step -/

/-- Every instruction keeps the invariant of a Running machine, whichever of its four ways it takes. -/
theorem inv_exec_next {i : Instr} {s t : State} (h : Inv s) (hrun : Running s) (he : exec i s = .next t) :
    Inv t := by
  obtain ⟨hfault, hhalted⟩ := hrun
  rw [exec_eq_execute] at he
  obtain ⟨-, rfl⟩ | ⟨-, -, rfl⟩ | ⟨result, x, -, halu, ⟨k, hw, rfl⟩ | ⟨s', hw, rfl⟩⟩ := execute_next he
  · exact inv_advancePc h
  · exact inv_raiseDivisionByZero h hhalted i
  · exact inv_raiseDataFault h hhalted (writeBackOf_fault_kind hw) result i
  · exact inv_withFlags (inv_writeBackOf_done (inv_advancePc h) hfault hw) (isResultFlags_of_alu halu)

theorem inv_step_next {s t : State} (h : Inv s) (hstep : step s = .next t) : Inv t := by
  obtain ⟨hfault, hhalted, ⟨-, rfl⟩ | ⟨w, e, -, -, rfl⟩ | ⟨w, i, -, -, hexec⟩⟩ := step_next hstep
  · exact inv_raiseFetchFault h hhalted
  · exact inv_raiseUnknownOpcode h hhalted w
  · exact inv_exec_next h ⟨hfault, hhalted⟩ hexec

/-- Settles O59: a step is a fetch fault, an unknown opcode or an instruction, and each keeps the invariant. -/
theorem stepKeepsInvariant : Obligations.StepKeepsInvariant :=
  fun _ _ => inv_step_next

end Sys2Proof.Machine

/-! ## Every reachable state meets the invariant

The invariant at reset, then what each move of the host needs to keep it; beside it, that no step and no move
changes the parameters. The induction over the reachable states puts the two together. -/

namespace Sys2Proof.Machine

/-! ### The invariant at reset -/

/-- R160: a reset sets all that `Inv` reads but the parameters and the storage, which it keeps. -/
theorem inv_hostReset_of_storage {s : State} (hconfig : s.config.Valid) (hmem : s.mem.wf)
    (hlisted : ∀ c ∈ s.mem, c.1 < s.config.memWords) : Inv s.hostReset where
  config := hconfig
  memory := hmem
  listed := hlisted
  flags := .inr rfl
  apart := fun hfault => absurd rfl hfault
  record := fun _ hfault => nomatch hfault

theorem inv_hostReset {s : State} (h : Inv s) : Inv s.hostReset :=
  inv_hostReset_of_storage h.config h.memory h.listed

theorem hostReset_resetWith (c : Config) : (State.resetWith c).hostReset = State.resetWith c := rfl

theorem resetWith_standard : State.resetWith Config.standard = State.reset := rfl

/-- With nothing loaded there is no storage word to check. -/
theorem inv_resetWith {c : Config} (hc : c.Valid) : Inv (State.resetWith c) := by
  rw [← hostReset_resetWith]
  exact inv_hostReset_of_storage hc wf_nil (List.forall_mem_nil _)

theorem config_standard_valid : Config.standard.Valid := by decide

/-- Settles O58: the parameters of `State.reset` are the default ones, which are valid. -/
theorem resetMeetsInvariant : Obligations.ResetMeetsInvariant :=
  ⟨resetWith_standard ▸ inv_resetWith config_standard_valid, fun _ => inv_resetWith⟩

/-! ### The moves of the host -/

/-- R161, R163: `start` acts on a Halted machine only. -/
theorem start_cases (s : State) (a : Word) :
    (Halted s ∧ s.start a = (s.withPc a).withHalted false) ∨ (¬ Halted s ∧ s.start a = s) := by
  by_cases h : Halted s
  · exact .inl ⟨h, if_pos h⟩
  · exact .inr ⟨h, if_neg h⟩

/-- R167, R21: a load by the host is of a word that exists, into a machine that is not Running. -/
theorem hostLoad_eq_some {s t : State} {a : Nat} {v : Word} (h : s.hostLoad a v = some t) :
    (s.fault ≠ none ∨ s.halted = true) ∧ a < s.config.memWords ∧ t = s.withMem (s.mem.write a v) := by
  unfold State.hostLoad at h
  split at h
  · next hstopped => cases h; exact ⟨hstopped.1, hstopped.2, rfl⟩
  · cases h

theorem inv_withPc {s : State} (h : Inv s) (a : Word) : Inv (s.withPc a) :=
  inv_congr h rfl rfl rfl rfl rfl

theorem inv_start {s : State} (h : Inv s) (a : Word) : Inv (s.start a) := by
  obtain ⟨⟨hfault, -⟩, hstart⟩ | ⟨-, hstart⟩ := start_cases s a
  · rw [hstart]; exact inv_withHalted (inv_withPc h a) hfault false
  · rw [hstart]; exact h

theorem inv_hostLoad {s t : State} {a : Nat} {v : Word} (h : Inv s) (hload : s.hostLoad a v = some t) :
    Inv t := by
  obtain ⟨-, ha, rfl⟩ := hostLoad_eq_some hload
  exact inv_withMem_write h ha v

theorem inv_move {s t : State} (h : Inv s) (hmove : Move s t) : Inv t := by
  cases hmove with
  | step hstep => exact inv_step_next h hstep
  | reset ht => subst ht; exact inv_hostReset h
  | start a ht => subst ht; exact inv_start h a
  | load a v hload => exact inv_hostLoad h hload
  | supply vs ht => subst ht; exact inv_withInStream h _

/-! ### The parameters -/

theorem memRead_done_config {s s' : State} {ea v : Word} (h : s.memRead ea = .done (v, s')) :
    s'.config = s.config := by
  obtain ⟨-, rest, -, rfl⟩ | ⟨-, -, -, -, rfl⟩ := memRead_done h <;> rfl

theorem memWrite_done_config {s s' : State} {ea v : Word} (h : s.memWrite ea v = .done s') :
    s'.config = s.config := by
  obtain ⟨-, rfl⟩ | ⟨-, -, -, rfl⟩ := memWrite_done h <;> rfl

theorem writeBackOf_done_config {i : Instr} {result : Word} {s t : State}
    (h : writeBackOf i result s = .done t) : t.config = s.config := by
  obtain ⟨f, v, s', -, hread, rfl⟩ | ⟨f, -, hwrite⟩ | ⟨f, -, rfl⟩ | ⟨rfl, -⟩ := writeBackOf_done h
  · rw [writeReg_config, memRead_done_config hread]
  · exact memWrite_done_config hwrite
  · rfl
  · exact writeReg_config s i.fields.target result

theorem exec_next_config {i : Instr} {s t : State} (h : exec i s = .next t) : t.config = s.config := by
  rw [exec_eq_execute] at h
  obtain ⟨-, rfl⟩ | ⟨-, -, rfl⟩ | ⟨result, x, -, -, ⟨k, -, rfl⟩ | ⟨s', hw, rfl⟩⟩ := execute_next h
  · rfl
  · rfl
  · rfl
  · rw [withFlags_config, writeBackOf_done_config hw, advancePc_config]

theorem step_next_config {s t : State} (h : step s = .next t) : t.config = s.config := by
  obtain ⟨-, -, ⟨-, rfl⟩ | ⟨w, e, -, -, rfl⟩ | ⟨w, i, -, -, hexec⟩⟩ := step_next h
  · rfl
  · rfl
  · exact exec_next_config hexec

theorem start_config (s : State) (a : Word) : (s.start a).config = s.config := by
  obtain ⟨-, hstart⟩ | ⟨-, hstart⟩ := start_cases s a
  · rw [hstart, withHalted_config, withPc_config]
  · rw [hstart]

/-- R24: no step and no move of the host changes a parameter. -/
theorem move_config {s t : State} (h : Move s t) : t.config = s.config := by
  cases h with
  | step hstep => exact step_next_config hstep
  | reset ht => subst ht; rfl
  | start a ht => subst ht; exact start_config s a
  | load a v hload => obtain ⟨-, -, rfl⟩ := hostLoad_eq_some hload; rfl
  | supply vs ht => subst ht; rfl

/-! ### The reachable states -/

theorem inv_reachable {s : State} (h : Reachable s) : Inv s := by
  induction h with
  | reset c hc => exact inv_resetWith hc
  | move _ hmove ih => exact inv_move ih hmove

/-- Settles O60, by induction on how the state is reached. -/
theorem reachableStatesMeetInvariant : Obligations.ReachableStatesMeetInvariant :=
  ⟨fun _ _ h hmove => ⟨inv_move h hmove, move_config hmove⟩, fun _ => inv_resetWith,
    fun _ => inv_reachable⟩

end Sys2Proof.Machine

/-! ## The registers: reset, r0, and what an instruction leaves alone (R11, R14, R23) -/

namespace Sys2Proof.Machine

theorem readReg_reset (r : RegNum) : State.reset.readReg r = 0#32 := by
  by_cases h0 : r.val = 0
  · simp [State.readReg, h0]
  by_cases h15 : r.val = 15
  · simp [State.readReg, h15, State.reset, Config.resetPc]
  · rw [readReg_general _ _ h0 h15]
    exact Vector.getElem_replicate _

/-- Settles O9: the registers are read one by one, the other values stand in `State.reset`. -/
theorem resetStateValues : Obligations.ResetStateValues :=
  ⟨readReg_reset, rfl, rfl, rfl, rfl, rfl, rfl, read_nil, fun _ => ⟨rfl, rfl⟩⟩

/-- Settles O14, by the register laws for r0. -/
theorem registerZeroIsHardWired : Obligations.RegisterZeroIsHardWired :=
  fun s v => ⟨readReg_zero s, writeReg_zero s v⟩

theorem readReg_writeReg_of_ne (s : State) {d r : RegNum} (v : Word) (h : r ≠ d) :
    (s.writeReg d v).readReg r = s.readReg r := by
  rw [readReg_writeReg, if_neg h]
  split
  · next h0 => rw [h0, readReg_zero]
  · rfl

theorem memRead_done_readReg {s s' : State} {ea v : Word} (h : s.memRead ea = .done (v, s')) (r : RegNum) :
    s'.readReg r = s.readReg r := by
  obtain ⟨-, rest, -, rfl⟩ | ⟨-, -, -, -, rfl⟩ := memRead_done h <;> rfl

theorem memWrite_done_readReg {s s' : State} {ea v : Word} (h : s.memWrite ea v = .done s') (r : RegNum) :
    s'.readReg r = s.readReg r := by
  obtain ⟨-, rfl⟩ | ⟨-, -, -, rfl⟩ := memWrite_done h <;> rfl

/-- R14, R87: a write-back writes the target register at most; those of STORE and HALT write none. -/
theorem writeBackOf_done_readReg {i : Instr} {result : Word} {s t : State} {r : RegNum}
    (hr : r ≠ i.fields.target ∨ i.opcode = .store ∨ i.opcode = .halt)
    (h : writeBackOf i result s = .done t) : t.readReg r = s.readReg r := by
  cases i with
  | store f => exact memWrite_done_readReg h r
  | halt f => cases h; rfl
  | load f =>
    obtain ⟨v, s', hread, rfl⟩ := writeBackLoad_done h
    have htarget : r ≠ f.target := by simpa [Instr.opcode, Instr.fields] using hr
    rw [readReg_writeReg_of_ne s' v htarget, memRead_done_readReg hread]
  | add f | sub f | mul f | div f | and f | or f =>
    have htarget : r ≠ f.target := by simpa [Instr.opcode, Instr.fields] using hr
    cases h
    exact readReg_writeReg_of_ne s result htarget

/-- R13: the advance of the program counter is a write of r15. -/
theorem readReg_advancePc_of_ne (s : State) {r : RegNum} (h : r ≠ 15) : s.advancePc.readReg r = s.readReg r := by
  rw [readReg_advancePc, if_neg h]

/-- Settles O23: an instruction that is skipped or faults writes r15 at most, and one that completes writes
what its write-back writes. -/
theorem onlyTargetAndPcChange : Obligations.OnlyTargetAndPcChange := by
  intro i s t h r h15 hr
  rw [exec_eq_execute] at h
  obtain ⟨-, rfl⟩ | ⟨-, -, rfl⟩ | ⟨result, x, -, -, ⟨k, -, rfl⟩ | ⟨s', hw, rfl⟩⟩ := execute_next h
  · exact readReg_advancePc_of_ne s h15
  · rfl
  · rfl
  · rw [readReg_withFlags, writeBackOf_done_readReg hr hw, readReg_advancePc_of_ne s h15]

end Sys2Proof.Machine

/-! ## The console output is unobservable (R22, R41)

Words put before those a machine has written go through every operation unseen: each operation commutes with
`State.prependOutput`. So a step from any output is the step from the empty output with that output put
before, and what the step appends is what it writes from the empty output. -/

namespace Sys2Proof.Machine

/-- The machine with the words `pre` written before all it has written. -/
def State.prependOutput (pre : List Word) (s : State) : State := s.withOutStream (pre ++ s.outStream)

/-- A function of states, applied to the next state if there is one. -/
def mapNext (g : State → State) :
    Host.Outcome State Fault Refusal → Host.Outcome State Fault Refusal
  | .next s => .next (g s)
  | .fault r => .fault r
  | .refused r => .refused r

theorem mapNext_eq_next {g : State → State} {o : Host.Outcome State Fault Refusal} {t : State}
    (h : mapNext g o = .next t) : ∃ t', o = .next t' ∧ t = g t' := by
  cases o with
  | next t' => cases h; exact ⟨t', rfl, rfl⟩
  | fault r => cases h
  | refused r => cases h

theorem mapNext_eq_fault {g : State → State} {o : Host.Outcome State Fault Refusal} {r : Fault}
    (h : mapNext g o = .fault r) : o = .fault r := by
  cases o with
  | next t' => cases h
  | fault r' => cases h; rfl
  | refused r' => cases h

/-- Every output is put before the empty one. -/
theorem withOutStream_eq_prependOutput (s : State) (out : List Word) :
    s.withOutStream out = (s.withOutStream []).prependOutput out := by
  simp [State.prependOutput, State.withOutStream]

/-! ### The operations -/

theorem prependOutput_writeReg (pre : List Word) (s : State) (d : RegNum) (v : Word) :
    (s.prependOutput pre).writeReg d v = (s.writeReg d v).prependOutput pre := by
  unfold State.writeReg
  split
  · rfl
  · split <;> rfl

theorem prependOutput_memRead (pre : List Word) (s : State) (ea : Word) :
    (s.prependOutput pre).memRead ea = (s.memRead ea).map (Prod.map id (State.prependOutput pre)) := by
  by_cases hin : ea.toNat = s.config.ioIn
  · cases hs : s.inStream with
    | nil => rw [memRead_of_empty hin hs, memRead_of_empty (s := s.prependOutput pre) hin hs]; rfl
    | cons v rest => rw [memRead_of_word hin hs, memRead_of_word (s := s.prependOutput pre) hin hs]; rfl
  by_cases hbad : ea.toNat = s.config.ioOut ∨ ¬ InRange s.config ea
  · rw [memRead_of_bad hin hbad, memRead_of_bad (s := s.prependOutput pre) hin hbad]; rfl
  · obtain ⟨hout, hrange⟩ := not_or.mp hbad
    have hrange := not_not.mp hrange
    rw [memRead_of_storage hrange hin hout, memRead_of_storage (s := s.prependOutput pre) hrange hin hout]; rfl

/-- R41: a word is appended after whatever stands before. -/
theorem prependOutput_consoleOut (pre : List Word) (s : State) (v : Word) :
    (s.prependOutput pre).consoleOut v = (s.consoleOut v).prependOutput pre := by
  simp [State.prependOutput, State.consoleOut, State.withOutStream]

theorem prependOutput_memWrite (pre : List Word) (s : State) (ea v : Word) :
    (s.prependOutput pre).memWrite ea v = (s.memWrite ea v).map (State.prependOutput pre) := by
  by_cases hout : ea.toNat = s.config.ioOut
  · rw [memWrite_of_console v hout, memWrite_of_console (s := s.prependOutput pre) v hout]
    exact congrArg Access.done (prependOutput_consoleOut pre s v)
  by_cases hbad : ea.toNat = s.config.ioIn ∨ ¬ InRange s.config ea
  · rw [memWrite_of_bad v hout hbad, memWrite_of_bad (s := s.prependOutput pre) v hout hbad]; rfl
  · obtain ⟨hin, hrange⟩ := not_or.mp hbad
    have hrange := not_not.mp hrange
    rw [memWrite_of_storage v hrange hin hout, memWrite_of_storage (s := s.prependOutput pre) v hrange hin hout]
    rfl

theorem prependOutput_writeBackLoad (pre : List Word) (f : Fields) (ea : Word) (s : State) :
    writeBackLoad f ea (s.prependOutput pre) = (writeBackLoad f ea s).map (State.prependOutput pre) := by
  unfold writeBackLoad
  rw [prependOutput_memRead]
  cases s.memRead ea with
  | done p => exact congrArg Access.done (prependOutput_writeReg pre p.2 f.target p.1)
  | memoryFault k => rfl
  | waiting => rfl

theorem prependOutput_writeBackOf (pre : List Word) (i : Instr) (result : Word) (s : State) :
    writeBackOf i result (s.prependOutput pre) =
      (writeBackOf i result s).map (State.prependOutput pre) := by
  cases i with
  | halt f => rfl
  | load f => exact prependOutput_writeBackLoad pre f result s
  | store f => exact prependOutput_memWrite pre s result (s.readReg f.target)
  | add f | sub f | mul f | div f | and f | or f =>
    exact congrArg Access.done (prependOutput_writeReg pre s f.target result)

/-! ### The instructions and the step -/

theorem prependOutput_finish (pre : List Word) (i : Instr) (s : State) (ea : Word) (x : Flags)
    (a : Access State) :
    finish i (s.prependOutput pre) ea x (a.map (State.prependOutput pre)) =
      mapNext (State.prependOutput pre) (finish i s ea x a) := by
  cases a <;> rfl

/-- The predicate test and the operands do not read the output, so both machines take the same way. -/
theorem prependOutput_exec (pre : List Word) (i : Instr) (s : State) :
    exec i (s.prependOutput pre) = mapNext (State.prependOutput pre) (exec i s) := by
  rw [exec_eq_execute, exec_eq_execute]
  by_cases he : Executes i.fields.pred s.flags
  · cases ha : alu i.opcode (leftOperand i.fields s) (rightOperand i.fields s) with
    | none => rw [execute_alu_none he ha, execute_alu_none (s := s.prependOutput pre) he ha]; rfl
    | some p =>
      obtain ⟨result, x⟩ := p
      rw [execute_alu_some he ha, execute_alu_some (s := s.prependOutput pre) he ha,
        ← prependOutput_finish, ← prependOutput_writeBackOf]
      rfl
  · rw [execute_skipped he, execute_skipped (s := s.prependOutput pre) he]; rfl

theorem prependOutput_step (pre : List Word) (s : State) :
    step (s.prependOutput pre) = mapNext (State.prependOutput pre) (step s) := by
  have hfault : (s.prependOutput pre).fault = s.fault := rfl
  have hhalted : (s.prependOutput pre).halted = s.halted := rfl
  have hfetch : (s.prependOutput pre).fetch (s.prependOutput pre).pc = s.fetch s.pc := rfl
  unfold step
  rw [hfault, hhalted, hfetch]
  split
  · rfl
  split
  · rfl
  cases s.fetch s.pc with
  | none => rfl
  | some w =>
    dsimp only
    cases decode w with
    | error e => rfl
    | ok i => exact prependOutput_exec pre i s

/-- A step is the step from the empty output, with the output put before. -/
theorem step_withOutStream (s : State) (out : List Word) :
    step (s.withOutStream out) = mapNext (State.prependOutput out) (step (s.withOutStream [])) := by
  rw [withOutStream_eq_prependOutput, prependOutput_step]

/-- Settles O51: both runs are the step from the empty output, each with its own output put before. -/
theorem outputIsUnobservable : Obligations.OutputIsUnobservable := by
  intro s
  have hs : step s = mapNext (State.prependOutput s.outStream) (step (s.withOutStream [])) :=
    step_withOutStream s s.outStream
  refine ⟨fun t ht => ?_, fun r hr out => ?_⟩
  · obtain ⟨t₀, ht₀, rfl⟩ := mapNext_eq_next (hs.symm.trans ht)
    exact ⟨t₀.outStream, rfl, fun out => by rw [step_withOutStream, ht₀]; rfl⟩
  · rw [step_withOutStream, mapNext_eq_fault (hs.symm.trans hr)]; rfl

end Sys2Proof.Machine

/-! ## Memory and the console (R31, R35 to R46, R120 to R125)

The address ranges, then a fetch; LOAD and STORE as the access they make, with what each outcome of the access
comes to; the step and the wait by what they fetch. The statements follow from these. -/

namespace Sys2Proof.Machine

/-! ### The addresses -/

/-- R31: since N is at most 2^31, the signed and the unsigned reading of the range agree. -/
theorem inRange_iff_toNat_lt {c : Config} (hc : c.Valid) (a : Word) : InRange c a ↔ a.toNat < c.memWords := by
  refine ⟨toNat_lt_of_inRange, fun hlt => ?_⟩
  obtain ⟨-, hmax, -⟩ := hc
  have hsame : a.toInt = a.toNat := BitVec.toInt_eq_toNat_of_lt (by omega)
  constructor <;> omega

theorem not_inRange_of_sign {c : Config} {a : Word} (h : a.getLsbD 31 = true) : ¬ InRange c a := by
  have hmsb : a.msb = true := (BitVec.msb_eq_getLsbD_last a).trans h
  have hneg : a.toInt < 0 := by simpa [BitVec.msb_eq_toInt] using hmsb
  exact fun ⟨hnonneg, _⟩ => absurd hnonneg (not_le.mpr hneg)

/-- Settles O15: the two readings agree up to 2^31, and a word with its sign bit set is negative. -/
theorem inRangeSignedIsUnsigned : Obligations.InRangeSignedIsUnsigned :=
  fun _ a hc => ⟨inRange_iff_toNat_lt hc a, not_inRange_of_sign⟩

/-- R38: both I/O addresses lie in 0 to N-1, so no word outside names one. -/
theorem ne_io_of_not_inRange {c : Config} (hc : c.Valid) {a : Word} (h : ¬ InRange c a) :
    a.toNat ≠ c.ioIn ∧ a.toNat ≠ c.ioOut := by
  rw [inRange_iff_toNat_lt hc] at h
  obtain ⟨-, -, hin, hout, -⟩ := hc
  omega

/-! ### The fetch -/

theorem fetch_of_not_isStorage {s : State} {a : Word} (h : ¬ IsStorage s.config a) : s.fetch a = none := by
  rw [fetch_eq_none]
  by_contra hno
  push Not at hno
  exact h hno

/-- R46: a fetch after a write sees the word written, at that address and at no other. -/
theorem fetch_withMem_write {s : State} {ea : Word} (hwf : s.mem.wf) (hea : IsStorage s.config ea)
    (v a : Word) :
    (s.withMem (s.mem.write ea.toNat v)).fetch a = if a = ea then some v else s.fetch a := by
  by_cases ha : IsStorage s.config a
  · obtain ⟨hrange, hin, hout⟩ := ha
    rw [fetch_of_storage (s := s.withMem (s.mem.write ea.toNat v)) hrange hin hout,
      fetch_of_storage hrange hin hout, withMem_mem, read_write _ _ _ _ hwf, apply_ite some]
    simp only [BitVec.toNat_inj]
  · have hne : a ≠ ea := fun e => ha (e ▸ hea)
    rw [if_neg hne, fetch_of_not_isStorage ha]
    exact fetch_of_not_isStorage (s := s.withMem (s.mem.write ea.toNat v)) ha

/-! ### The registers after an access -/

/-- A register write after the advance, whatever an access did between them to the rest of the state. -/
theorem regsAfterWrite_writeReg {s s' : State} (h : ∀ r, s'.readReg r = s.advancePc.readReg r) (d : RegNum)
    (v : Word) : RegsAfterWrite s (s'.writeReg d v) d v := by
  intro r
  rw [readReg_writeReg, h, readReg_advancePc]

/-- R121: the data register is read after the advance. -/
theorem readReg_advancePc_eq_storeData (f : Fields) (s : State) :
    s.advancePc.readReg f.target = storeData f s :=
  readReg_advancePc s f.target

/-! ### LOAD and STORE as the access they make -/

/-- R108: the flags of LOAD and STORE, those of the address. -/
def addressFlags (f : Fields) (s : State) : Flags := flagsOf (exactAddressOf f s) (effectiveAddress f s)

/-- R122: the ALU result of LOAD and of STORE is their address. -/
theorem eq_effectiveAddress_of_alu {op : Opcode} {f : Fields} {s : State} {result : Word} {x : Flags}
    (hop : op = .load ∨ op = .store) (h : alu op (leftOperand f s) (rightOperand f s) = some (result, x)) :
    result = effectiveAddress f s := by
  obtain rfl | rfl := hop <;> cases h <;> rfl

/-- R120: an executed LOAD makes its access, a `MemRead`, at the effective address. -/
theorem exec_load_executed {f : Fields} {s : State} (he : Executes f.pred s.flags) :
    exec (.load f) s = finish (.load f) s (effectiveAddress f s) (addressFlags f s)
      (writeBackLoad f (effectiveAddress f s) s.advancePc) :=
  execute_alu_some (i := .load f) he rfl

/-- R121: an executed STORE makes its access, a `MemWrite` of the data word, at the effective address. -/
theorem exec_store_executed {f : Fields} {s : State} (he : Executes f.pred s.flags) :
    exec (.store f) s = finish (.store f) s (effectiveAddress f s) (addressFlags f s)
      (s.advancePc.memWrite (effectiveAddress f s) (storeData f s)) := by
  rw [← readReg_advancePc_eq_storeData]
  exact execute_alu_some (i := .store f) he rfl

theorem exec_load_of_word {f : Fields} {s : State} {v : Word} {rest : List Word} (he : Executes f.pred s.flags)
    (hin : (effectiveAddress f s).toNat = s.config.ioIn) (hs : s.inStream = v :: rest) :
    exec (.load f) s =
      .next (((s.advancePc.withInStream rest).writeReg f.target v).withFlags (addressFlags f s)) := by
  rw [exec_load_executed he, writeBackLoad, memRead_of_word (s := s.advancePc) hin hs]; rfl

theorem exec_load_of_empty {f : Fields} {s : State} (he : Executes f.pred s.flags)
    (hin : (effectiveAddress f s).toNat = s.config.ioIn) (hs : s.inStream = []) :
    exec (.load f) s = .fault .consoleInputEmpty := by
  rw [exec_load_executed he, writeBackLoad, memRead_of_empty (s := s.advancePc) hin hs]; rfl

theorem exec_load_of_bad {f : Fields} {s : State} (he : Executes f.pred s.flags)
    (hin : (effectiveAddress f s).toNat ≠ s.config.ioIn)
    (hbad : (effectiveAddress f s).toNat = s.config.ioOut ∨ ¬ InRange s.config (effectiveAddress f s)) :
    exec (.load f) s = .next (s.raiseDataFault .load (effectiveAddress f s) (.load f)) := by
  rw [exec_load_executed he, writeBackLoad, memRead_of_bad (s := s.advancePc) hin hbad]; rfl

theorem exec_store_of_console {f : Fields} {s : State} (he : Executes f.pred s.flags)
    (hout : (effectiveAddress f s).toNat = s.config.ioOut) :
    exec (.store f) s =
      .next ((s.advancePc.withOutStream (s.outStream ++ [storeData f s])).withFlags (addressFlags f s)) := by
  rw [exec_store_executed he, memWrite_of_console (s := s.advancePc) _ hout]; rfl

theorem exec_store_of_bad {f : Fields} {s : State} (he : Executes f.pred s.flags)
    (hout : (effectiveAddress f s).toNat ≠ s.config.ioOut)
    (hbad : (effectiveAddress f s).toNat = s.config.ioIn ∨ ¬ InRange s.config (effectiveAddress f s)) :
    exec (.store f) s = .next (s.raiseDataFault .store (effectiveAddress f s) (.store f)) := by
  rw [exec_store_executed he, memWrite_of_bad (s := s.advancePc) _ hout hbad]; rfl

theorem exec_store_of_storage {f : Fields} {s : State} (he : Executes f.pred s.flags)
    (hea : IsStorage s.config (effectiveAddress f s)) :
    exec (.store f) s =
      .next ((s.advancePc.withMem (s.mem.write (effectiveAddress f s).toNat (storeData f s))).withFlags
        (addressFlags f s)) := by
  obtain ⟨hrange, hin, hout⟩ := hea
  rw [exec_store_executed he, memWrite_of_storage (s := s.advancePc) _ hrange hin hout]; rfl

/-! ### The statements about one LOAD or STORE -/

/-- R40: the whole effect of a LOAD that takes the console word `v`. -/
theorem exec_load_takes_word {f : Fields} {s : State} {v : Word} {rest : List Word}
    (he : Executes f.pred s.flags) (hin : (effectiveAddress f s).toNat = s.config.ioIn)
    (hs : s.inStream = v :: rest) :
    ∃ t, exec (.load f) s = .next t ∧ RegsAfterWrite s t f.target v ∧
      t.flags = flagsOf (exactAddressOf f s) (effectiveAddress f s) ∧
      KeepsRunState s t ∧ KeepsStorage s t ∧ t.inStream = rest ∧ t.outStream = s.outStream := by
  refine ⟨_, exec_load_of_word he hin hs, ?regs, rfl, ?run, ?storage, ?input, ?output⟩
  case regs => exact regsAfterWrite_writeReg (s' := s.advancePc.withInStream rest) (fun _ => rfl) f.target v
  case run => simp [KeepsRunState]
  case storage => simp [KeepsStorage]
  case input => simp
  case output => simp

/-- Settles O34: the access finishes or waits by what the input stream holds. -/
theorem loadFromConsoleTakesWordOrWaits : Obligations.LoadFromConsoleTakesWordOrWaits :=
  fun _ _ he hin => ⟨exec_load_of_empty he hin, fun _ _ => exec_load_takes_word he hin⟩

/-- Settles O35: the input address is in range and not the output address, so the access is a bad one. -/
theorem loadOutsideStorageFaults : Obligations.LoadOutsideStorageFaults := by
  intro f s hc he hbad
  have hin : (effectiveAddress f s).toNat ≠ s.config.ioIn := by
    obtain hout | hrange := hbad
    · obtain ⟨-, -, -, -, hne⟩ := hc
      exact hout ▸ hne.symm
    · exact (ne_io_of_not_inRange hc hrange).1
  exact exec_load_of_bad he hin hbad

/-- Settles O37: the word appended is the data word, and the state is else that of the PC advance. -/
theorem storeToConsoleAppends : Obligations.StoreToConsoleAppends :=
  fun _ s he hout => ⟨_, exec_store_of_console he hout, rfl, rfl, rfl, readReg_advancePc s,
    ⟨rfl, rfl, rfl⟩, fun _ => rfl⟩

/-- Settles O38: the output address is in range and not the input address, so the access is a bad one. -/
theorem storeOutsideStorageFaults : Obligations.StoreOutsideStorageFaults := by
  intro f s hc he hbad
  have hout : (effectiveAddress f s).toNat ≠ s.config.ioOut := by
    obtain hin | hrange := hbad
    · obtain ⟨-, -, -, -, hne⟩ := hc
      exact hin ▸ hne
    · exact (ne_io_of_not_inRange hc hrange).2
  exact exec_store_of_bad he hout hbad

/-- Settles O39: a fetch reads the memory the STORE wrote, and neither the PC advance nor the flags. -/
theorem fetchSeesLastStore : Obligations.FetchSeesLastStore :=
  fun f s a hwf he hea =>
    ⟨_, exec_store_of_storage he hea, fetch_withMem_write (s := s.advancePc) hwf hea (storeData f s) a⟩

/-! ### The step by what it fetches -/

theorem step_of_fetch_none {s : State} (hrun : Running s) (hf : s.fetch s.pc = none) :
    step s = .next s.raiseFetchFault := by
  obtain ⟨hfault, hhalted⟩ := hrun
  simp [step, hfault, hhalted, hf]

theorem step_of_decode_ok {s : State} {w : Word} {i : Instr} (hrun : Running s) (hf : s.fetch s.pc = some w)
    (hd : decode w = .ok i) : step s = exec i s := by
  obtain ⟨hfault, hhalted⟩ := hrun
  simp [step, hfault, hhalted, hf, hd]

/-- Settles O54: the fetch of an address that is not storage gives no word. -/
theorem fetchOutsideStorageFaults : Obligations.FetchOutsideStorageFaults :=
  fun _ hrun hpc => step_of_fetch_none hrun (fetch_of_not_isStorage hpc)

/-- A step that gives a next state skips its instruction, records a fault, or completes the write-back of its
instruction. -/
theorem step_next_completes {s t : State} (h : step s = .next t) :
    t = s.skip ∨ (∃ r, t = s.raise r) ∨
    ∃ w i result x s', s.fetch s.pc = some w ∧ decode w = .ok i ∧ Executes i.fields.pred s.flags ∧
      alu i.opcode (leftOperand i.fields s) (rightOperand i.fields s) = some (result, x) ∧
      writeBackOf i result s.advancePc = .done s' ∧ t = s'.withFlags x := by
  obtain ⟨-, -, ⟨-, rfl⟩ | ⟨w, e, -, -, rfl⟩ | ⟨w, i, hf, hd, hexec⟩⟩ := step_next h
  · exact .inr (.inl ⟨_, rfl⟩)
  · exact .inr (.inl ⟨_, rfl⟩)
  rw [exec_eq_execute] at hexec
  obtain ⟨-, rfl⟩ | ⟨-, -, rfl⟩ | ⟨result, x, he, ha, ⟨k, -, rfl⟩ | ⟨s', hw, rfl⟩⟩ := execute_next hexec
  · exact .inl rfl
  · exact .inr (.inl ⟨_, rfl⟩)
  · exact .inr (.inl ⟨_, rfl⟩)
  · exact .inr (.inr ⟨w, i, result, x, s', hf, hd, he, ha, hw, rfl⟩)

/-! ### The wait -/

/-- R40: an instruction that gives no next state is a LOAD from the console with nothing supplied. -/
theorem exec_fault {i : Instr} {s : State} {r : Fault} (h : exec i s = .fault r) :
    r = .consoleInputEmpty ∧ ∃ f, i = .load f ∧ Executes f.pred s.flags ∧
      (effectiveAddress f s).toNat = s.config.ioIn ∧ s.inStream = [] := by
  rw [exec_eq_execute] at h
  obtain ⟨hr, result, x, he, ha, hw⟩ := execute_fault h
  obtain ⟨f, rfl, hread⟩ := writeBackOf_waiting hw
  obtain ⟨hin, hs⟩ := memRead_waiting hread
  obtain rfl := eq_effectiveAddress_of_alu (.inl rfl) ha
  exact ⟨hr, f, rfl, he, hin, hs⟩

/-- R40, R153: a waiting machine is Running at an executed LOAD from the console, with nothing supplied. -/
theorem load_of_waiting {s : State} (h : Waiting s) :
    Running s ∧ ∃ w f, s.fetch s.pc = some w ∧ decode w = .ok (.load f) ∧ Executes f.pred s.flags ∧
      (effectiveAddress f s).toNat = s.config.ioIn ∧ s.inStream = [] := by
  unfold Waiting step at h
  split at h
  · cases h
  split at h
  · cases h
  next hfault hhalted =>
  split at h
  · cases h
  next w hf =>
  split at h
  · cases h
  next i hd =>
  obtain ⟨-, f, rfl, he, hin, hs⟩ := exec_fault h
  exact ⟨⟨not_not.mp hfault, eq_false_of_ne_true hhalted⟩, w, f, hf, hd, he, hin, hs⟩

/-- Settles O46: the supplied machine is at the same LOAD, and its input stream is what was supplied. -/
theorem waitingMachineResumes : Obligations.WaitingMachineResumes := by
  intro s v vs h
  obtain ⟨hrun, w, f, hf, hd, he, hin, hs⟩ := load_of_waiting h
  have hsupplied : (s.supply (v :: vs)).inStream = v :: vs := congrArg (· ++ v :: vs) hs
  obtain ⟨t, hexec, -, -, ⟨-, -, hfault⟩, -, hrest, -⟩ :=
    exec_load_takes_word (s := s.supply (v :: vs)) he hin hsupplied
  refine ⟨t, ?_, hrest, hfault.trans hrun.1⟩
  exact (step_of_decode_ok (s := s.supply (v :: vs)) hrun hf hd).trans hexec

/-! ### The console streams -/

/-- R45: a write-back appends to the console output by a STORE to the output address only. -/
theorem writeBackOf_done_outStream {i : Instr} {result : Word} {s t : State}
    (h : writeBackOf i result s = .done t) :
    t.outStream = s.outStream ∨
    ∃ f, i = .store f ∧ result.toNat = s.config.ioOut ∧ t.outStream = s.outStream ++ [s.readReg f.target] := by
  obtain ⟨f, v, s', -, hread, rfl⟩ | ⟨f, rfl, hwrite⟩ | ⟨f, -, rfl⟩ | ⟨rfl, -⟩ := writeBackOf_done h
  · rw [writeReg_outStream]
    obtain ⟨-, rest, -, rfl⟩ | ⟨-, -, -, -, rfl⟩ := memRead_done hread <;> exact .inl rfl
  · obtain ⟨hout, rfl⟩ | ⟨-, -, -, rfl⟩ := memWrite_done hwrite
    · exact .inr ⟨f, rfl, hout, rfl⟩
    · exact .inl rfl
  · exact .inl rfl
  · exact .inl (writeReg_outStream _ _ _)

/-- R42: a write-back takes from the console input by a LOAD from the input address only. -/
theorem writeBackOf_done_inStream {i : Instr} {result : Word} {s t : State}
    (h : writeBackOf i result s = .done t) :
    t.inStream = s.inStream ∨
    ∃ f v, i = .load f ∧ result.toNat = s.config.ioIn ∧ s.inStream = v :: t.inStream := by
  obtain ⟨f, v, s', rfl, hread, rfl⟩ | ⟨f, -, hwrite⟩ | ⟨f, -, rfl⟩ | ⟨rfl, -⟩ := writeBackOf_done h
  · rw [writeReg_inStream]
    obtain ⟨hin, rest, hs, rfl⟩ | ⟨-, -, -, -, rfl⟩ := memRead_done hread
    · exact .inr ⟨f, v, rfl, hin, hs⟩
    · exact .inl rfl
  · obtain ⟨-, rfl⟩ | ⟨-, -, -, rfl⟩ := memWrite_done hwrite <;> exact .inl rfl
  · exact .inl rfl
  · exact .inl (writeReg_inStream _ _ _)

/-- Settles O50: a skip and a fault leave both streams, and a completed instruction moves them by its
write-back, at the effective address. -/
theorem consoleMovesInOrder : Obligations.ConsoleMovesInOrder := by
  intro s t h
  obtain rfl | ⟨r, rfl⟩ | ⟨w, i, result, x, s', hf, hd, he, ha, hw, rfl⟩ := step_next_completes h
  · exact ⟨.inl rfl, .inl rfl⟩
  · exact ⟨.inl rfl, .inl rfl⟩
  constructor
  · obtain hkeep | ⟨f, rfl, hout, happend⟩ := writeBackOf_done_outStream hw
    · exact .inl hkeep
    · obtain rfl := eq_effectiveAddress_of_alu (.inr rfl) ha
      rw [readReg_advancePc_eq_storeData] at happend
      exact .inr ⟨w, f, hf, hd, he, hout, happend⟩
  · obtain hkeep | ⟨f, v, rfl, hin, htake⟩ := writeBackOf_done_inStream hw
    · exact .inl hkeep
    · obtain rfl := eq_effectiveAddress_of_alu (.inl rfl) ha
      exact .inr ⟨w, f, v, hf, hd, he, hin, htake⟩

end Sys2Proof.Machine

/-! ## The codec (R50 to R60)

A field of a word is the library's `BitVec.extractLsb'`, so its bits, its unsigned and its signed value are the
library's. A word is the sum of its six fields; `encode` gives each field its value, and `decode` reads each
field. Both round trips and the arithmetic of both directions follow field by field. -/

namespace Sys2Proof

/-! ### Extraction -/

/-- R52: the model's mask and shift, and the library's extraction, take the same bits. -/
theorem extract_eq_toNat_extractLsb' (f : BitField) (w : Word) :
    f.extract w = (w.extractLsb' f.fromBit f.width).toNat := by
  refine Nat.eq_of_testBit_eq fun k => ?_
  have hw := fromBit_add_width f
  have hplace : (f.fromBit ≤ k + f.fromBit ∧ k + f.fromBit ≤ f.toBit) ↔ k < f.width := by omega
  rw [BitField.extract, Nat.testBit_div_two_pow, BitVec.testBit_toNat, BitVec.testBit_toNat,
    BitVec.getLsbD_and, mask_getLsbD, BitVec.getLsbD_extractLsb', decide_eq_decide.mpr hplace,
    Nat.add_comm k, Bool.and_comm]

theorem extract_lt (f : BitField) (w : Word) : f.extract w < 2 ^ f.width :=
  extract_eq_toNat_extractLsb' f w ▸ BitVec.isLt _

theorem extract_testBit (f : BitField) (w : Word) (k : Nat) :
    (f.extract w).testBit k = (decide (k < f.width) && w.getLsbD (f.fromBit + k)) := by
  rw [extract_eq_toNat_extractLsb', BitVec.testBit_toNat, BitVec.getLsbD_extractLsb']

theorem extract_eq_div_mod (f : BitField) (w : Word) :
    f.extract w = w.toNat / 2 ^ f.fromBit % 2 ^ f.width := by
  rw [extract_eq_toNat_extractLsb', BitVec.extractLsb'_toNat, Nat.shiftRight_eq_div_pow]

/-- Settles O2: the value extracted is that of a bit vector of the field's width. -/
theorem extractReadsFieldBits : Obligations.ExtractReadsFieldBits :=
  fun f w => ⟨extract_lt f w, extract_testBit f w⟩

/-! ### Signed extraction -/

/-- R53: the signed reading of an `n`-bit value is that of two's complement. -/
theorem signedValue_toNat {n : Nat} (x : BitVec n) : signedValue n x.toNat = x.toInt := by
  simp [signedValue, BitVec.toInt_eq_msb_cond, BitVec.msb_eq_decide]

/-- The sign bit of a field is its high-order bit. -/
theorem msb_extractLsb'_field (f : BitField) (w : Word) :
    (w.extractLsb' f.fromBit f.width).msb = w.getLsbD f.toBit := by
  have hpos := width_pos f
  have hw := fromBit_add_width f
  have htop : f.fromBit + (f.width - 1) = f.toBit := by omega
  have hlast : f.width - 1 < f.width := by omega
  rw [BitVec.msb_eq_getLsbD_last, BitVec.getLsbD_extractLsb', htop, decide_eq_true hlast, Bool.true_and]

theorem extractSigned_of_width_lt {f : BitField} (h : f.width < 2) (w : Word) : f.extractSigned w = none :=
  if_pos h

theorem extractSigned_of_two_le_width {f : BitField} (h : 2 ≤ f.width) (w : Word) :
    f.extractSigned w = some (w.extractLsb' f.fromBit f.width).toInt := by
  rw [BitField.extractSigned, if_neg (by omega), extract_eq_toNat_extractLsb', signedValue_toNat]

/-- Settles O4: the value is the field's two's complement reading, and its word the library's sign extension. -/
theorem signedExtractionCopiesTopBit : Obligations.SignedExtractionCopiesTopBit := by
  refine fun f w => ⟨fun h => extractSigned_of_width_lt h w, fun h =>
    ⟨_, extractSigned_of_two_le_width h w, ?value, fun k hk => ?bits⟩⟩
  case value =>
    rw [BitVec.toInt_eq_msb_cond, msb_extractLsb'_field, ← extract_eq_toNat_extractLsb', Nat.cast_pow,
      Nat.cast_ofNat]
  case bits =>
    change ((w.extractLsb' f.fromBit f.width).signExtend 32).getLsbD k = _
    rw [BitVec.getLsbD_signExtend, msb_extractLsb'_field, BitVec.getLsbD_extractLsb']
    by_cases hin : k < f.width <;> simp [hk, hin]

/-! ### Insertion -/

theorem wrap32_mul_two_pow (v : Int) (n : Nat) : wrap32 (v * 2 ^ n) = wrap32 v <<< n := by
  have hpow : wrap32 (2 ^ n) = BitVec.twoPow 32 n := by
    have hcast := BitVec.ofInt_natCast 32 (2 ^ n)
    rw [Nat.cast_pow, Nat.cast_ofNat] at hcast
    rw [wrap32, hcast]
    exact BitVec.eq_of_toNat_eq (BitVec.toNat_twoPow 32 n).symm
  rw [wrap32_mul, hpow, BitVec.shiftLeft_eq_mul_twoPow]

/-- R51: an insertion puts the low-order bits of the value into the field. -/
theorem insert_getLsbD_inside (f : BitField) (v : Int) (w : Word) {k : Nat} (hlow : f.fromBit ≤ k)
    (hhigh : k ≤ f.toBit) : (f.insert v w).getLsbD k = (wrap32 v).getLsbD (k - f.fromBit) := by
  have hk : k < 32 := by have := f.bounded; omega
  rw [BitField.insert, wrap32_mul_two_pow, BitVec.getLsbD_or, BitVec.getLsbD_and, BitVec.getLsbD_and, mask_getLsbD,
    inverseMask_getLsbD, BitVec.getLsbD_shiftLeft]
  simp [hk, hlow, hhigh]

/-- Settles O1: the bits inside the field, and those outside it. -/
theorem insertReplacesFieldBits : Obligations.InsertReplacesFieldBits := by
  intro f v w k _
  split
  next hin => exact insert_getLsbD_inside f v w hin.1 hin.2
  next hout => exact insert_getLsbD_outside f v w k hout

/-- R51: the field read back is the inserted value modulo `2^width`. -/
theorem extract_insert (f : BitField) (v : Int) (w : Word) :
    (f.extract (f.insert v w) : Int) = v % 2 ^ f.width := by
  have hw := fromBit_add_width f
  have hb := f.bounded
  have hbits : f.extract (f.insert v w) = (wrap32 v).toNat % 2 ^ f.width := by
    refine Nat.eq_of_testBit_eq fun k => ?_
    rw [extract_testBit, Nat.testBit_mod_two_pow, BitVec.testBit_toNat]
    by_cases hk : k < f.width
    · rw [insert_getLsbD_inside f v w (by omega) (by omega), Nat.add_sub_cancel_left]
    · simp [hk]
  have hdvd : (2 : Int) ^ f.width ∣ 2 ^ 32 := pow_dvd_pow 2 (by omega)
  rw [hbits, Int.natCast_mod, BitVec.toNat_ofInt, Int.toNat_of_nonneg (Int.emod_nonneg _ (by norm_num))]
  push_cast
  exact Int.emod_emod_of_dvd v hdvd

theorem extract_insert_of_lt {f : BitField} {v : Nat} (h : v < 2 ^ f.width) (w : Word) :
    f.extract (f.insert v w) = v := by
  have hmod := extract_insert f v w
  rw [Int.emod_eq_of_lt (by omega) (by exact_mod_cast h)] at hmod
  exact_mod_cast hmod

/-- Settles O3: a value that fits is its own remainder modulo `2^width`. -/
theorem extractAfterInsert : Obligations.ExtractAfterInsert :=
  fun _ _ w h => extract_insert_of_lt h w

/-- R51: an insertion leaves every field that lies beside it as it was. -/
theorem extract_insert_of_disjoint {f g : BitField} (h : g.toBit < f.fromBit ∨ f.toBit < g.fromBit) (v : Int)
    (w : Word) : g.extract (f.insert v w) = g.extract w := by
  have hw := fromBit_add_width g
  refine Nat.eq_of_testBit_eq fun k => ?_
  rw [extract_testBit, extract_testBit]
  by_cases hk : k < g.width
  · rw [insert_getLsbD_outside f v w _ (by omega)]
  · simp [hk]

/-! ### The six fields of a word -/

/-- R55: the six fields cover the word, each at its place. -/
theorem toNat_eq_sum_extract (w : Word) :
    w.toNat = opcodeField.extract w * 2 ^ 26 + predicateField.extract w * 2 ^ 22 +
      targetField.extract w * 2 ^ 18 + src1Field.extract w * 2 ^ 14 + src2Field.extract w * 2 ^ 10 +
      offsetField.extract w := by
  have hlt := w.isLt
  simp only [extract_eq_div_mod, BitField.width, opcodeField, predicateField, targetField, src1Field, src2Field,
    offsetField]
  omega

/-- The opcode field is at the top of the word, so nothing has to be cut off above it. -/
theorem extract_opcodeField (w : Word) : opcodeField.extract w = w.toNat / 2 ^ 26 :=
  (extract_eq_div_mod opcodeField w).trans (Nat.mod_eq_of_lt (Nat.div_lt_of_lt_mul w.isLt))

/-! ### What encode puts into each field -/

theorem number_lt (op : Opcode) : op.number < 2 ^ opcodeField.width := by cases op <;> decide

@[simp] theorem extract_opcode_encode (i : Instr) : opcodeField.extract (encode i) = i.opcode.number := by
  simp (disch := decide) only [encode, extract_insert_of_disjoint]
  exact extract_insert_of_lt (number_lt i.opcode) _

@[simp] theorem extract_predicate_encode (i : Instr) :
    predicateField.extract (encode i) = i.fields.pred.toNat := by
  simp (disch := decide) only [encode, extract_insert_of_disjoint]
  exact extract_insert_of_lt i.fields.pred.isLt _

@[simp] theorem extract_target_encode (i : Instr) : targetField.extract (encode i) = i.fields.target.val := by
  simp (disch := decide) only [encode, extract_insert_of_disjoint]
  exact extract_insert_of_lt i.fields.target.isLt _

@[simp] theorem extract_src1_encode (i : Instr) : src1Field.extract (encode i) = i.fields.src1.val := by
  simp (disch := decide) only [encode, extract_insert_of_disjoint]
  exact extract_insert_of_lt i.fields.src1.isLt _

@[simp] theorem extract_src2_encode (i : Instr) : src2Field.extract (encode i) = i.fields.src2.val := by
  simp (disch := decide) only [encode, extract_insert_of_disjoint]
  exact extract_insert_of_lt i.fields.src2.isLt _

@[simp] theorem extract_offset_encode (i : Instr) :
    (offsetField.extract (encode i) : Int) = i.fields.offset % 1024 :=
  extract_insert offsetField i.fields.offset _

/-- Settles O6: the word is the sum of its six fields, and `encode` gives each its value. -/
theorem encodeIsSumOfFields : Obligations.EncodeIsSumOfFields := by
  intro i _
  have hsum := toNat_eq_sum_extract (encode i)
  simp only [extract_opcode_encode, extract_predicate_encode, extract_target_encode, extract_src1_encode,
    extract_src2_encode] at hsum
  rw [hsum]
  push_cast
  rw [extract_offset_encode]

/-! ### What decode reads from each field -/

@[simp] theorem decodeFields_pred_toNat (w : Word) :
    (decodeFields w).pred.toNat = predicateField.extract w :=
  Nat.mod_eq_of_lt (extract_lt predicateField w)

@[simp] theorem decodeFields_target_val (w : Word) : (decodeFields w).target.val = targetField.extract w :=
  Nat.mod_eq_of_lt (extract_lt targetField w)

@[simp] theorem decodeFields_src1_val (w : Word) : (decodeFields w).src1.val = src1Field.extract w :=
  Nat.mod_eq_of_lt (extract_lt src1Field w)

@[simp] theorem decodeFields_src2_val (w : Word) : (decodeFields w).src2.val = src2Field.extract w :=
  Nat.mod_eq_of_lt (extract_lt src2Field w)

/-- R53 at the ten bits of the offset. -/
theorem decodeFields_offset (w : Word) :
    (decodeFields w).offset =
      if offsetField.extract w < 512 then (offsetField.extract w : Int) else offsetField.extract w - 1024 := by
  change (if 512 ≤ offsetField.extract w then (_ : Int) - 1024 else _) = _
  split <;> split <;> omega

theorem decodeFields_wellFormed (w : Word) : (decodeFields w).WellFormed := by
  have hlt : offsetField.extract w < 1024 := extract_lt offsetField w
  rw [Fields.WellFormed, decodeFields_offset]
  split <;> omega

theorem decodeFields_offset_emod (w : Word) : (decodeFields w).offset % 1024 = offsetField.extract w := by
  have hlt : offsetField.extract w < 1024 := extract_lt offsetField w
  rw [decodeFields_offset]
  split <;> omega

/-- R56: a word that decodes has a known opcode number, and all its other fields are taken as they are. -/
theorem decode_ok {w : Word} {i : Instr} (h : decode w = .ok i) :
    i.opcode.number = opcodeField.extract w ∧ i.fields = decodeFields w := by
  obtain ⟨op, hop, hnumber⟩ | ⟨hnone, -⟩ := opcodeOfNumber_cases (opcodeField.extract w)
  · rw [decode_eq_ok hop] at h
    cases h
    exact ⟨by rw [instr_opcode, hnumber], instr_fields op _⟩
  · rw [decode_eq_error hnone] at h
    cases h

/-- R56, R62: a word is refused for the number in its opcode field. -/
theorem decode_error {w : Word} {n : Nat} (h : decode w = .error (.unknownOpcode n)) :
    n = opcodeField.extract w ∧ (n = 4 ∨ 10 ≤ n) := by
  obtain ⟨op, hop, -⟩ | ⟨hnone, hillegal⟩ := opcodeOfNumber_cases (opcodeField.extract w)
  · rw [decode_eq_ok hop] at h
    cases h
  · rw [decode_eq_error hnone] at h
    cases h
    exact ⟨rfl, hillegal⟩

/-- Settles O5: each field read is a quotient of the word, cut off at the field's width. -/
theorem decodeReadsEveryField : Obligations.DecodeReadsEveryField := by
  intro w
  split
  next i h =>
    obtain ⟨hnumber, hfields⟩ := decode_ok h
    have hoffset : offsetField.extract w = w.toNat % 1024 := by
      simpa [offsetField, BitField.width] using extract_eq_div_mod offsetField w
    rw [hfields, hnumber, decodeFields_pred_toNat, decodeFields_target_val, decodeFields_src1_val,
      decodeFields_src2_val, decodeFields_offset, hoffset]
    exact ⟨extract_opcodeField w, extract_eq_div_mod predicateField w, extract_eq_div_mod targetField w,
      extract_eq_div_mod src1Field w, extract_eq_div_mod src2Field w, rfl⟩
  next n h =>
    obtain ⟨hn, hillegal⟩ := decode_error h
    exact ⟨hn.trans (extract_opcodeField w), hillegal⟩

/-! ### The round trips -/

/-- R53, R57: an offset of -512 to 511 comes back from its field. -/
theorem decodeFields_encode_offset {i : Instr} (h : i.WellFormed) :
    (decodeFields (encode i)).offset = i.fields.offset := by
  obtain ⟨hlow, hhigh⟩ := h
  have hfield := extract_offset_encode i
  rw [decodeFields_offset]
  split <;> omega

theorem Fields.ext {f g : Fields} (hpred : f.pred = g.pred) (htarget : f.target = g.target)
    (hsrc1 : f.src1 = g.src1) (hsrc2 : f.src2 = g.src2) (hoffset : f.offset = g.offset) : f = g := by
  cases f
  cases g
  congr

theorem decodeFields_encode {i : Instr} (h : i.WellFormed) : decodeFields (encode i) = i.fields :=
  Fields.ext (BitVec.eq_of_toNat_eq (by simp)) (Fin.ext (by simp)) (Fin.ext (by simp)) (Fin.ext (by simp))
    (decodeFields_encode_offset h)

theorem decode_encode {i : Instr} (h : i.WellFormed) : decode (encode i) = .ok i := by
  have hop : opcodeOfNumber (opcodeField.extract (encode i)) = some i.opcode := by
    rw [extract_opcode_encode, opcodeOfNumber_number]
  rw [decode_eq_ok hop, decodeFields_encode h, instr_eta]

/-- R59: the instruction read from a word has the word's six fields, so its own word is that word. -/
theorem encode_of_decode {w : Word} {i : Instr} (h : decode w = .ok i) : encode i = w := by
  obtain ⟨hnumber, hfields⟩ := decode_ok h
  have hoffset : offsetField.extract (encode i) = offsetField.extract w := by
    have := extract_offset_encode i
    rw [hfields, decodeFields_offset_emod] at this
    exact_mod_cast this
  refine BitVec.eq_of_toNat_eq ?_
  rw [toNat_eq_sum_extract (encode i), toNat_eq_sum_extract w, hoffset]
  simp [hnumber, hfields]

theorem wellFormed_of_decode {w : Word} {i : Instr} (h : decode w = .ok i) : i.WellFormed := by
  rw [Instr.WellFormed, (decode_ok h).2]
  exact decodeFields_wellFormed w

/-- Settles O7: a valid instruction comes back field by field, and a word is determined by its fields. -/
theorem codecRoundTrips : Obligations.CodecRoundTrips :=
  ⟨fun _ => decode_encode, fun _ _ h => ⟨encode_of_decode h, wellFormed_of_decode h⟩⟩

/-- Settles O8, by evaluation of the decoder at the eight words. -/
theorem listedWordsDecode : Obligations.ListedWordsDecode := by
  unfold Obligations.ListedWordsDecode
  decide

end Sys2Proof

/-! ## Data words and symbolic forms (R64, R74) -/

namespace Sys2Proof.Machine

/-! ### A small data word -/

/-- R64: a word below 2^22 has the opcode number of HALT and the predicate NEVER. -/
theorem decode_of_lt_two_pow_22 {w : Word} (h : w.toNat < 2 ^ 22) :
    decode w = .ok (.halt (decodeFields w)) ∧ (decodeFields w).pred = never := by
  have hopcode : opcodeField.extract w = 0 := by
    rw [extract_opcodeField]; omega
  have hpred : predicateField.extract w = 0 := by
    have := toNat_eq_sum_extract w; omega
  exact ⟨decode_eq_ok (op := .halt) (by rw [hopcode]; rfl),
    BitVec.eq_of_toNat_eq ((decodeFields_pred_toNat w).trans hpred)⟩

theorem not_executes_never (x : Flags) : ¬ Executes never x := by
  simp [Executes, never, always]

/-- Settles O47: the HALT that the word decodes to is never executed. -/
theorem smallDataWordIsSkipped : Obligations.SmallDataWordIsSkipped := by
  intro s w hrun hf hsmall
  obtain ⟨hdecode, hnever⟩ := decode_of_lt_two_pow_22 hsmall
  have hskip : ¬ Executes (decodeFields w).pred s.flags := hnever ▸ not_executes_never s.flags
  rw [step_of_decode_ok hrun hf hdecode, exec_eq_execute, execute_skipped (i := .halt (decodeFields w)) hskip]
  rfl

/-! ### The symbolic forms -/

/-- R84, R122: the address sum, of words. -/
theorem effectiveAddress_eq_add (f : Fields) (s : State) :
    effectiveAddress f s = s.readReg f.src1 + (s.readReg f.src2 + wrap32 f.offset) := by
  rw [effectiveAddress, rightOperand, leftOperand, wrap32_add, wrap32_toInt, wrap32_toInt, wrap32_add,
    wrap32_toInt]

theorem relativeOffset_eq_some {label current : Nat} {rel : Int} (h : relativeOffset label current = some rel) :
    rel = label - current := by
  obtain ⟨-, h⟩ := Option.ite_none_right_eq_some.mp h
  exact (Option.some.inj h).symm

/-- R74: the address of a PC-relative form is its label, whatever instruction it stands in. -/
theorem effectiveAddress_pcRelative {label current : Nat} {rel : Int} {s : State}
    (hpc : s.pc = BitVec.ofNat 32 current) (hrel : relativeOffset label current = some rel) (p : Predicate)
    (target : RegNum) : effectiveAddress (pcRelative p target rel) s = BitVec.ofNat 32 label := by
  have hwrap : wrap32 rel = BitVec.ofNat 32 label - BitVec.ofNat 32 current := by
    rw [relativeOffset_eq_some hrel, wrap32_sub, wrap32, wrap32, BitVec.ofInt_natCast, BitVec.ofInt_natCast]
  calc effectiveAddress (pcRelative p target rel) s
      = 0#32 + (s.pc + wrap32 rel) := effectiveAddress_eq_add _ s
    _ = BitVec.ofNat 32 label := by rw [hpc, hwrap, BitVec.zero_add, BitVec.add_comm, BitVec.sub_add_cancel]

/-- R102, R131: an executed ADD into r15 jumps to its sum, which is the address LOAD and STORE would use. -/
theorem exec_add_jump {f : Fields} {s : State} (he : Executes f.pred s.flags) (htarget : f.target = 15) :
    exec (.add f) s =
      .next ((s.advancePc.withPc (effectiveAddress f s)).withFlags (addressFlags f s)) := by
  rw [exec_eq_execute, execute_alu_some (i := .add f) he rfl]
  change Host.Outcome.next ((s.advancePc.writeReg f.target _).withFlags _) = _
  rw [htarget]
  rfl

/-- Settles O42: each form is the PC-relative operand to the label, used as an address or as a sum. -/
theorem symbolicFormsReachLabel : Obligations.SymbolicFormsReachLabel := by
  intro p target label current s hpc
  refine ⟨fun f hf => ?load, fun f hf => ?store, fun i hi he => ?jump⟩
  case load | store =>
    obtain ⟨rel, hrel, hinstr⟩ := Option.map_eq_some_iff.mp hf
    cases hinstr
    exact effectiveAddress_pcRelative hpc hrel p target
  case jump =>
    obtain ⟨rel, hrel, rfl⟩ := Option.map_eq_some_iff.mp hi
    exact ⟨_, exec_add_jump (f := pcRelative p 15 rel) he rfl, effectiveAddress_pcRelative hpc hrel p 15⟩

end Sys2Proof.Machine

/-! ## The predicate and the step (R80 to R93, R110)

The predicate test; then one instruction, skipped or executed; then the step of a machine that is Running,
waiting or stopped, and the run loop over it. -/

namespace Sys2Proof.Machine

/-! ### The predicate test -/

/-- R83: the bits that a predicate and the flags have in common. -/
theorem and_ne_zero_iff_exists_bit (p x : BitVec 4) :
    p &&& x ≠ 0#4 ↔ ∃ k, k < 4 ∧ p.getLsbD k = true ∧ x.getLsbD k = true := by
  constructor
  · intro hne
    by_contra hnone
    push Not at hnone
    refine hne (BitVec.eq_of_getLsbD_eq fun k hk => ?_)
    simpa using hnone k hk
  · rintro ⟨k, -, hp, hx⟩ hzero
    have hbit : (p &&& x).getLsbD k = true := by simp [hp, hx]
    simp [hzero] at hbit

/-- Settles O17: the test of the model is the one on bits, with ALWAYS beside it. -/
theorem predicateTest : Obligations.PredicateTest :=
  fun p x => or_congr_left (and_ne_zero_iff_exists_bit p x)

/-! ### One instruction -/

/-- Settles O21: a skip, whatever the write-back of the instruction would be. -/
theorem skippedInstructionOnlyAdvances : Obligations.SkippedInstructionOnlyAdvances :=
  fun i s hskip => (exec_eq_execute i s).trans (execute_skipped hskip)

/-- Settles O22: of the ways to a next state, only a finished write-back is executed and leaves no fault. -/
theorem executedInstructionWritesFlags : Obligations.ExecutedInstructionWritesFlags := by
  intro i s t _ he h hfault
  rw [exec_eq_execute] at h
  obtain ⟨hskip, -⟩ | ⟨-, -, rfl⟩ | ⟨result, x, -, ha, ⟨k, -, rfl⟩ | ⟨s', -, rfl⟩⟩ := execute_next h
  · exact absurd he hskip
  · cases hfault
  · cases hfault
  · exact ⟨result, ha⟩

/-- R103, R110: `0 - (x + 1)` is NOT x, both operations wrapping. -/
theorem wrap32_zero_sub_succ (x : Word) : wrap32 ((0#32).toInt - (wrap32 (x.toInt + 1)).toInt) = ~~~ x :=
  calc wrap32 ((0#32).toInt - (wrap32 (x.toInt + 1)).toInt)
      = 0#32 - (x + 1#32) := by
        rw [wrap32_sub, wrap32_toInt, wrap32_toInt, wrap32_add, wrap32_toInt]; rfl
    _ = ~~~ x := by rw [BitVec.not_eq_neg_add]; bv_omega

/-- Settles O32: the idiom is always executed, and writes the ALU's difference to its target. -/
theorem complementIdiom : Obligations.ComplementIdiom := by
  intro rt rx s
  have he : Executes (complement rt rx).fields.pred s.flags := .inr rfl
  refine ⟨_, (exec_eq_execute _ s).trans (execute_alu_some he rfl), ?_⟩
  rw [← wrap32_zero_sub_succ]
  exact regsAfterWrite_writeReg (fun _ => rfl) rt _

/-! ### The step of a Running machine -/

/-- Settles O43: the fetch of a storage word gives that word. -/
theorem stepRunsDecodedInstruction : Obligations.StepRunsDecodedInstruction := by
  rintro s i hrun ⟨hrange, hin, hout⟩ hd
  exact step_of_decode_ok hrun (fetch_of_storage hrange hin hout) hd

theorem step_of_decode_error {s : State} {w : Word} {e : DecodeError} (hrun : Running s)
    (hf : s.fetch s.pc = some w) (hd : decode w = .error e) : step s = .next (s.raiseUnknownOpcode w) := by
  obtain ⟨hfault, hhalted⟩ := hrun
  simp [step, hfault, hhalted, hf, hd]

/-- R40: an instruction completes, faults into a next state, or waits for the console; none is refused. -/
theorem exec_next_or_waits (i : Instr) (s : State) :
    (∃ t, exec i s = .next t) ∨ exec i s = .fault .consoleInputEmpty := by
  cases h : exec i s with
  | next t => exact .inl ⟨t, rfl⟩
  | fault r => exact .inr (by rw [(exec_fault h).1])
  | refused r => exact absurd ((exec_eq_execute i s).symm.trans h) execute_ne_refused

/-- R80, R161: a Running machine faults in the fetch or in the decoding, or does what its instruction does. -/
theorem step_next_or_waiting {s : State} (hrun : Running s) : (∃ t, step s = .next t) ∨ Waiting s := by
  cases hf : s.fetch s.pc with
  | none => exact .inl ⟨_, step_of_fetch_none hrun hf⟩
  | some w =>
    cases hd : decode w with
    | error e => exact .inl ⟨_, step_of_decode_error hrun hf hd⟩
    | ok i =>
      rw [Waiting, step_of_decode_ok hrun hf hd]
      exact exec_next_or_waits i s

/-- Settles O45: a wait is that of the LOAD at the program counter, and such a LOAD waits. -/
theorem runningMachineStepsOrWaits : Obligations.RunningMachineStepsOrWaits := by
  refine fun s => ⟨step_next_or_waiting, load_of_waiting, ?_⟩
  rintro ⟨hrun, w, f, hf, hd, he, hin, hs⟩
  exact (step_of_decode_ok hrun hf hd).trans (exec_load_of_empty he hin hs)

/-! ### A stopped machine, and the run loop -/

theorem step_of_halted {s : State} (h : Halted s) : step s = .fault .halted := by
  obtain ⟨hfault, hhalted⟩ := h
  simp [step, hfault, hhalted]

theorem step_of_faulted {s : State} (h : Faulted s) : step s = .fault .faulted := if_pos h

/-- Settles O44: the run state is tested before the fetch, the fault first. -/
theorem stoppedMachineTakesNoStep : Obligations.StoppedMachineTakesNoStep :=
  fun _ => ⟨step_of_halted, step_of_faulted⟩

theorem runLoop_of_step {s t : State} (h : step s = .next t) (n : Nat) : runLoop (n + 1) s = runLoop n t := by
  rw [runLoop, h]

/-- R92: the run loop stays where no step is taken. -/
theorem runLoop_of_no_step {s : State} (h : ∀ t, step s ≠ .next t) (n : Nat) : runLoop n s = s := by
  cases n with
  | zero => rfl
  | succ n =>
    rw [runLoop]
    split
    · next t ht => exact absurd ht (h t)
    · rfl

/-- R92: a run can be cut anywhere and taken up again. -/
theorem runLoop_add (n m : Nat) (s : State) : runLoop (n + m) s = runLoop m (runLoop n s) := by
  induction n generalizing s with
  | zero => rw [Nat.zero_add]; rfl
  | succ n ih =>
    by_cases h : ∃ t, step s = .next t
    · obtain ⟨t, ht⟩ := h
      rw [Nat.succ_add, runLoop_of_step ht, runLoop_of_step ht, ih]
    · push Not at h
      simp only [runLoop_of_no_step h]

theorem step_ne_next_of_not_running {s : State} (h : ¬ Running s) (t : State) : step s ≠ .next t := by
  intro hstep
  obtain ⟨hfault, hhalted, -⟩ := step_next hstep
  exact h ⟨hfault, hhalted⟩

/-- Settles O53: the further steps start where the run has ended, and there none is taken. -/
theorem endedRunIsFinal : Obligations.EndedRunIsFinal := by
  intro n m s hended
  rw [runLoop_add]
  exact runLoop_of_no_step (step_ne_next_of_not_running hended) m

end Sys2Proof.Machine

/-! ## Arithmetic and logic (R100 to R110)

The four flag bits of a result, and overflow by signs; the floor quotient of DIV; then what the six ALU
instructions share, one equation over their exact results, and each of them by it. -/

namespace Sys2Proof.Machine

/-! ### The bits of the flags -/

/-- R101: exactly one of M, Z, P, and never V. -/
theorem signFlag_bits (w : Word) :
    (signFlag w).getLsbD 0 = decide (w.toInt < 0) ∧ (signFlag w).getLsbD 1 = decide (w.toInt = 0) ∧
    (signFlag w).getLsbD 2 = decide (0 < w.toInt) ∧ (signFlag w).getLsbD 3 = false := by
  obtain ⟨h, hflag⟩ | ⟨h, hflag⟩ | ⟨h, hflag⟩ := signFlag_cases w
  · simp [hflag, h, h.ne, h.le]
  · simp [hflag, h]
  · simp [hflag, h, h.ne', h.le]

/-- R101: V is a bit of its own beside the sign flag. -/
theorem flagsOf_bits (exact : Int) (w : Word) :
    (flagsOf exact w).getLsbD 0 = decide (w.toInt < 0) ∧ (flagsOf exact w).getLsbD 1 = decide (w.toInt = 0) ∧
    (flagsOf exact w).getLsbD 2 = decide (0 < w.toInt) ∧
    (flagsOf exact w).getLsbD 3 = decide (exact ≠ w.toInt) := by
  obtain ⟨hM, hZ, hP, hV⟩ := signFlag_bits w
  by_cases hfit : exact = w.toInt
  · rw [flagsOf_fits hfit]
    exact ⟨hM, hZ, hP, hV.trans (by simp [hfit])⟩
  · rw [flagsOf_overflows hfit]
    simp only [BitVec.getLsbD_or, hM, hZ, hP, hV]
    simp [hfit]

/-- R101: V of a wrapped result tells whether the exact one fits 32 signed bits. -/
theorem flagsOf_wrap32_V (exact : Int) :
    (flagsOf exact (wrap32 exact)).getLsbD 3 = decide (exact < -2 ^ 31 ∨ 2 ^ 31 ≤ exact) := by
  obtain ⟨-, -, -, hV⟩ := flagsOf_bits exact (wrap32 exact)
  rw [hV, decide_eq_decide, ne_eq, eq_toInt_wrap32]
  omega

/-- Settles O18, bit by bit. -/
theorem flagBitsOfResult : Obligations.FlagBitsOfResult := by
  intro exact
  obtain ⟨hM, hZ, hP, -⟩ := flagsOf_bits exact (wrap32 exact)
  exact ⟨hM, hZ, hP, flagsOf_wrap32_V exact⟩

/-! ### Overflow by signs -/

theorem getLsbD_31_eq_neg (w : Word) : w.getLsbD 31 = decide (w.toInt < 0) :=
  (BitVec.msb_eq_getLsbD_last w).symm.trans BitVec.msb_eq_toInt

/-- An exact sum or difference of two words is at most one turn of 2^32 away from its wrap. -/
theorem toInt_wrap32_cases {n : Int} (hlow : -2 ^ 32 ≤ n) (hhigh : n < 2 ^ 32) :
    ((wrap32 n).toInt = n ∧ -2 ^ 31 ≤ n ∧ n < 2 ^ 31) ∨ ((wrap32 n).toInt = n - 2 ^ 32 ∧ 2 ^ 31 ≤ n) ∨
    ((wrap32 n).toInt = n + 2 ^ 32 ∧ n < -2 ^ 31) := by
  rw [wrap32, BitVec.toInt_ofInt, Int.bmod_def]
  split <;> omega

/-- Settles O19: in each of the three cases of the wrap, the signs of the operands and of the result are
linear facts. -/
theorem overflowBySigns : Obligations.OverflowBySigns := by
  intro l r
  have hl := toInt_bounds l
  have hr := toInt_bounds r
  simp only [flagsOf_wrap32_V, getLsbD_31_eq_neg, decide_eq_decide, ne_eq]
  constructor
  · have hwrap := toInt_wrap32_cases (n := l.toInt + r.toInt) (by omega) (by omega)
    omega
  · have hwrap := toInt_wrap32_cases (n := l.toInt - r.toInt) (by omega) (by omega)
    omega

/-! ### The flags of the ALU -/

/-- R101: a result that is its own exact value, as of AND, OR and HALT, leaves V clear. -/
theorem flagsOf_toInt_V (w : Word) : (flagsOf w.toInt w).getLsbD 3 = false := by
  obtain ⟨-, -, -, hV⟩ := flagsOf_bits w.toInt w
  simpa using hV

/-- R106, R107, R109: the exact results of AND, OR and HALT are signed values of words. -/
theorem aluExact_logic_eq_toInt {op : Opcode} {l r : Word} {exact : Int}
    (hop : op = .and ∨ op = .or ∨ op = .halt) (h : aluExact op l r = some exact) : ∃ w : Word, exact = w.toInt := by
  obtain rfl | rfl | rfl := hop <;> cases h
  · exact ⟨l &&& r, rfl⟩
  · exact ⟨l ||| r, rfl⟩
  · exact ⟨0#32, rfl⟩

/-- Settles O20: the six values are those of `flagsOf`, and V is clear where the exact result is a word's. -/
theorem aluFlagsAreOneOfSix : Obligations.AluFlagsAreOneOfSix := by
  intro op l r result x h
  refine ⟨isResultFlags_of_alu h, fun hop => ?_⟩
  obtain ⟨exact, hexact, rfl, rfl⟩ := alu_eq_some h
  obtain ⟨w, rfl⟩ := aluExact_logic_eq_toInt hop hexact
  rw [wrap32_toInt]
  exact flagsOf_toInt_V w

/-! ### The six ALU instructions -/

/-- R83 to R88: an executed ALU instruction with an exact result completes, and its wrap is all it writes. -/
theorem exec_alu_completes {i : Instr} {s : State} {exact : Int} (he : Executes i.fields.pred s.flags)
    (hwrite : writeBackOf i = writeBackResult i.fields)
    (hexact : aluExact i.opcode (leftOperand i.fields s) (rightOperand i.fields s) = some exact) :
    ∃ t, exec i s = .next t ∧ AluEffect s t i.fields.target exact (wrap32 exact) := by
  have halu : alu i.opcode (leftOperand i.fields s) (rightOperand i.fields s) =
      some (wrap32 exact, flagsOf exact (wrap32 exact)) := by rw [alu, hexact]; rfl
  have hexec : exec i s = .next ((s.advancePc.writeReg i.fields.target (wrap32 exact)).withFlags
      (flagsOf exact (wrap32 exact))) := by
    rw [exec_eq_execute, execute_alu_some he halu, hwrite]; rfl
  refine ⟨_, hexec, regsAfterWrite_writeReg (fun _ => rfl) i.fields.target (wrap32 exact), rfl, ?_, ?_, ?_⟩
  · simp [KeepsRunState]
  · simp [KeepsStorage]
  · simp [KeepsConsole]

/-- Settles O24: the exact result is the sum. -/
theorem addCompletes : Obligations.AddCompletes :=
  fun f _ he => exec_alu_completes (i := .add f) he rfl rfl

/-- Settles O25: the exact result is the difference. -/
theorem subCompletes : Obligations.SubCompletes :=
  fun f _ he => exec_alu_completes (i := .sub f) he rfl rfl

/-- R104: the low 32 bits of a product do not depend on how its factors are read. -/
theorem toNat_wrap32_mul (l r : Word) : (wrap32 (l.toInt * r.toInt)).toNat = l.toNat * r.toNat % 2 ^ 32 := by
  rw [wrap32_mul, wrap32_toInt, wrap32_toInt, BitVec.toNat_mul]

/-- Settles O26: the exact result is the signed product. -/
theorem mulCompletes : Obligations.MulCompletes := by
  intro f s he l r
  obtain ⟨t, ht, heffect⟩ := exec_alu_completes (i := .mul f) he rfl rfl
  exact ⟨t, _, ht, heffect, rfl, toNat_wrap32_mul l r⟩

/-! ### The floor quotient -/

/-- R105: the remainder of the floor quotient lies between 0 and the divisor, whatever the divisor's sign. -/
theorem fdiv_remainder_bounds (l r : Int) :
    (0 < r → 0 ≤ l - l.fdiv r * r ∧ l - l.fdiv r * r < r) ∧
    (r < 0 → r < l - l.fdiv r * r ∧ l - l.fdiv r * r ≤ 0) := by
  rw [mul_comm, ← Int.fmod_def]
  constructor
  · exact fun hr => ⟨Int.fmod_nonneg_of_pos l hr, Int.fmod_lt_of_pos l hr⟩
  · intro hr
    have hneg := Int.neg_fmod_neg l r
    have hlow := Int.fmod_nonneg_of_pos (-l) (neg_pos.mpr hr)
    have hhigh := Int.fmod_lt_of_pos (-l) (neg_pos.mpr hr)
    omega

/-- A quotient by a positive divisor fits 32 signed bits when the dividend is bounded by the divisor. -/
theorem ediv_fits_iff {a b : Int} (hb : 0 < b) :
    (-2 ^ 31 ≤ a / b ∧ a / b < 2 ^ 31) ↔ (-2 ^ 31 * b ≤ a ∧ a < 2 ^ 31 * b) :=
  and_congr (Int.le_ediv_iff_mul_le hb) (Int.ediv_lt_iff_lt_mul hb)

/-- R105: of all quotients of words, that of the lowest word by -1 alone does not fit. -/
theorem fdiv_fits_iff {l r : Int} (hlow : -2 ^ 31 ≤ l) (hhigh : l < 2 ^ 31) (hr : r ≠ 0) :
    (-2 ^ 31 ≤ l.fdiv r ∧ l.fdiv r < 2 ^ 31) ↔ ¬ (l = -2 ^ 31 ∧ r = -1) := by
  obtain hneg | hpos := lt_or_gt_of_ne hr
  · rw [← Int.neg_fdiv_neg, Int.fdiv_eq_ediv_of_nonneg _ (by omega), ediv_fits_iff (by omega)]
    omega
  · rw [Int.fdiv_eq_ediv_of_nonneg _ hpos.le, ediv_fits_iff hpos]
    omega

/-- R105: V after a division, in words. -/
theorem flagsOf_fdiv_V {l r : Word} (hr : r ≠ 0#32) :
    (flagsOf (l.toInt.fdiv r.toInt) (wrap32 (l.toInt.fdiv r.toInt))).getLsbD 3 = true ↔
      l = intMin ∧ r = -1#32 := by
  obtain ⟨hlow, hhigh⟩ := toInt_bounds l
  have hfits := fdiv_fits_iff hlow hhigh (mt eq_zero_of_toInt hr)
  have hmin : l = intMin ↔ l.toInt = -2 ^ 31 := BitVec.toInt_inj.symm
  have hone : r = -1#32 ↔ r.toInt = -1 := BitVec.toInt_inj.symm
  rw [flagsOf_wrap32_V, decide_eq_true_iff, hmin, hone]
  omega

theorem aluExact_div_of_ne_zero (l : Word) {r : Word} (hr : r ≠ 0#32) :
    aluExact .div l r = some (l.toInt.fdiv r.toInt) :=
  if_neg (mt eq_zero_of_toInt hr)

/-- Settles O27: a zero divisor has no ALU result, any other has the floor quotient. -/
theorem divCompletes : Obligations.DivCompletes := by
  intro f s he l r
  refine ⟨fun hr => ?zero, fun hr => ?nonzero⟩
  case zero =>
    have hnone : alu .div (leftOperand f s) r = none := by rw [hr]; rfl
    exact execute_alu_none (i := .div f) he hnone
  case nonzero =>
    obtain ⟨t, ht, heffect⟩ := exec_alu_completes (i := .div f) he rfl (aluExact_div_of_ne_zero l hr)
    obtain ⟨hpos, hneg⟩ := fdiv_remainder_bounds l.toInt r.toInt
    refine ⟨t, _, ht, heffect, hpos, hneg, ?_⟩
    obtain ⟨-, hflags, -⟩ := heffect
    rw [hflags]
    exact flagsOf_fdiv_V hr

/-! ### AND and OR -/

/-- R106, R107: an ALU instruction whose exact result is a word's signed value writes that word, with V clear
and M its sign bit. -/
theorem exec_logic_completes {i : Instr} {s : State} {v : Word} (he : Executes i.fields.pred s.flags)
    (hwrite : writeBackOf i = writeBackResult i.fields)
    (hexact : aluExact i.opcode (leftOperand i.fields s) (rightOperand i.fields s) = some v.toInt) :
    ∃ t, exec i s = .next t ∧ AluEffect s t i.fields.target v.toInt v ∧ t.flags.getLsbD 3 = false ∧
      t.flags.getLsbD 0 = v.getLsbD 31 := by
  obtain ⟨t, ht, heffect⟩ := exec_alu_completes he hwrite hexact
  rw [wrap32_toInt] at heffect
  refine ⟨t, ht, heffect, ?_⟩
  obtain ⟨-, hflags, -⟩ := heffect
  obtain ⟨hM, -⟩ := flagsOf_bits v.toInt v
  rw [hflags, hM, getLsbD_31_eq_neg]
  exact ⟨flagsOf_toInt_V v, rfl⟩

/-- Settles O29: the exact result is the signed value of the bitwise AND. -/
theorem andCompletes : Obligations.AndCompletes := by
  intro f s he l r
  obtain ⟨t, ht, heffect, hV, hM⟩ := exec_logic_completes (i := .and f) (v := l &&& r) he rfl rfl
  exact ⟨t, _, ht, heffect, fun _ => BitVec.getLsbD_and, hV, hM⟩

/-- R101: Z of a word's own signed value tells whether the word is 0. -/
theorem flagsOf_toInt_Z (w : Word) : (flagsOf w.toInt w).getLsbD 1 = true ↔ w = 0#32 := by
  obtain ⟨-, hZ, -⟩ := flagsOf_bits w.toInt w
  rw [hZ, decide_eq_true_iff]
  exact BitVec.toInt_inj (y := 0#32)

/-- Settles O30: the exact result is the signed value of the bitwise OR, which is 0 when both operands are. -/
theorem orCompletes : Obligations.OrCompletes := by
  intro f s he l r
  obtain ⟨t, ht, heffect, hV, hM⟩ := exec_logic_completes (i := .or f) (v := l ||| r) he rfl rfl
  refine ⟨t, _, ht, heffect, fun _ => BitVec.getLsbD_or, hV, hM, ?_⟩
  obtain ⟨-, hflags, -⟩ := heffect
  rw [hflags, flagsOf_toInt_Z, BitVec.or_eq_zero_iff]

/-! ### The compare idiom -/

/-- R101: the flags of an exact result that fits are its own sign. -/
theorem flagsOf_wrap32_of_fits {exact : Int} (hlow : -2 ^ 31 ≤ exact) (hhigh : exact < 2 ^ 31) :
    flagsOf exact (wrap32 exact) = if exact < 0 then flagM else if exact = 0 then flagZ else flagP := by
  have hfit : exact = (wrap32 exact).toInt := (eq_toInt_wrap32 exact).mpr ⟨hlow, hhigh⟩
  rw [flagsOf_fits hfit, signFlag, ← hfit]

/-- R11: a write to r0 leaves only the advance of the program counter. -/
theorem regsAfterWrite_zero {s t : State} {v : Word} (h : RegsAfterWrite s t 0 v) : RegsAfterAdvance s t := by
  intro r
  rw [h r]
  by_cases h0 : r = 0
  · subst h0; rfl
  · rw [if_neg h0, if_neg h0]

/-- R76, R103: the idiom is a SUB that is always executed and has target r0 and offset 0. -/
theorem exec_compareRegs (ra rb : RegNum) (s : State) :
    ∃ t, exec (compareRegs ra rb) s = .next t ∧
      AluEffect s t 0 ((s.readReg ra).toInt - (s.readReg rb).toInt)
        (wrap32 ((s.readReg ra).toInt - (s.readReg rb).toInt)) := by
  have hright : rightOperand (compareRegs ra rb).fields s = s.readReg rb :=
    (congrArg wrap32 (Int.add_zero _)).trans (wrap32_toInt (s.readReg rb))
  exact exec_alu_completes (i := compareRegs ra rb) (.inr rfl) rfl (by rw [hright]; rfl)

/-- Settles O31: of a difference that fits, the sign is the order of the two values. -/
theorem compareOrdersSignedValues : Obligations.CompareOrdersSignedValues := by
  intro ra rb s
  obtain ⟨t, ht, hregs, hflags, -⟩ := exec_compareRegs ra rb s
  refine ⟨t, ht, regsAfterWrite_zero hregs, fun hlow hhigh => ?_⟩
  rw [hflags, flagsOf_wrap32_of_fits hlow hhigh]
  simp only [sub_neg, sub_eq_zero]
  rfl

end Sys2Proof.Machine

/-! ## LOAD and STORE on storage (R44, R120 to R124)

The address as one wrapped sum; the whole effect of a LOAD from storage and of a STORE to it; and that a
write-back, so a step, changes storage by such a STORE only. -/

namespace Sys2Proof.Machine

/-- Settles O16: the wrap of the right operand is absorbed by the wrap of the sum. -/
theorem effectiveAddressIsSum : Obligations.EffectiveAddressIsSum := by
  intro f s
  rw [effectiveAddress_eq_add, Int.add_assoc, wrap32_add, wrap32_add, wrap32_toInt, wrap32_toInt]

/-! ### One LOAD, one STORE -/

theorem exec_load_of_storage {f : Fields} {s : State} (he : Executes f.pred s.flags)
    (hea : IsStorage s.config (effectiveAddress f s)) :
    exec (.load f) s =
      .next ((s.advancePc.writeReg f.target (s.mem.read (effectiveAddress f s).toNat)).withFlags
        (addressFlags f s)) := by
  obtain ⟨hrange, hin, hout⟩ := hea
  rw [exec_load_executed he, writeBackLoad, memRead_of_storage (s := s.advancePc) hrange hin hout]; rfl

/-- Settles O33: the next state is that of the PC advance, but for the target register and the flags. -/
theorem loadFromStorageCompletes : Obligations.LoadFromStorageCompletes := by
  intro f s he hea
  refine ⟨_, exec_load_of_storage he hea, ?regs, rfl, ?run, ?storage, ?console⟩
  case regs => exact regsAfterWrite_writeReg (fun _ => rfl) f.target _
  case run => simp [KeepsRunState]
  case storage => simp [KeepsStorage]
  case console => simp [KeepsConsole]

/-- Settles O36: the next state is that of the PC advance, but for the one word of storage and the flags. -/
theorem storeToStorageCompletes : Obligations.StoreToStorageCompletes :=
  fun f s hwf he hea => ⟨_, exec_store_of_storage he hea,
    fun a => read_write s.mem (effectiveAddress f s).toNat a (storeData f s) hwf, rfl, readReg_advancePc s,
    ⟨rfl, rfl, rfl⟩, ⟨rfl, rfl⟩⟩

/-! ### The step -/

/-- R124: a write-back changes storage by a STORE to a storage address only, and there by one write. -/
theorem writeBackOf_done_mem {i : Instr} {result : Word} {s t : State} (h : writeBackOf i result s = .done t) :
    t.mem = s.mem ∨
    ∃ f, i = .store f ∧ IsStorage s.config result ∧
      t.mem = s.mem.write result.toNat (s.readReg f.target) := by
  obtain ⟨f, v, s', -, hread, rfl⟩ | ⟨f, rfl, hwrite⟩ | ⟨f, -, rfl⟩ | ⟨rfl, -⟩ := writeBackOf_done h
  · rw [writeReg_mem]
    obtain ⟨-, rest, -, rfl⟩ | ⟨-, -, -, -, rfl⟩ := memRead_done hread <;> exact .inl rfl
  · obtain ⟨-, rfl⟩ | ⟨hout, hin, hrange, rfl⟩ := memWrite_done hwrite
    · exact .inl rfl
    · exact .inr ⟨f, rfl, ⟨hrange, hin, hout⟩, rfl⟩
  · exact .inl rfl
  · exact .inl (writeReg_mem _ _ _)

/-- R44, R124: a step keeps storage, or runs an executed STORE that writes the word at its address. -/
theorem step_next_mem {s t : State} (h : step s = .next t) :
    t.mem = s.mem ∨
    ∃ w f, s.fetch s.pc = some w ∧ decode w = .ok (.store f) ∧ Executes f.pred s.flags ∧
      IsStorage s.config (effectiveAddress f s) ∧
      t.mem = s.mem.write (effectiveAddress f s).toNat (storeData f s) := by
  obtain rfl | ⟨r, rfl⟩ | ⟨w, i, result, x, s', hf, hd, he, ha, hw, rfl⟩ := step_next_completes h
  · exact .inl rfl
  · exact .inl rfl
  obtain hkeep | ⟨f, rfl, hea, hmem⟩ := writeBackOf_done_mem hw
  · exact .inl hkeep
  · obtain rfl := eq_effectiveAddress_of_alu (.inr rfl) ha
    rw [readReg_advancePc_eq_storeData] at hmem
    exact .inr ⟨w, f, hf, hd, he, hea, hmem⟩

/-- Settles O49: a word that changed is the one that the STORE of the step wrote. -/
theorem onlyStoreChangesStorage : Obligations.OnlyStoreChangesStorage := by
  intro s t a h hchanged
  obtain hkeep | ⟨w, f, hf, hd, he, hea, hmem⟩ := step_next_mem h
  · exact absurd (congrArg (Memory.read · a) hkeep) hchanged
  have hother : ∀ b, b ≠ (effectiveAddress f s).toNat → t.mem.read b = s.mem.read b := by
    intro b hb
    rw [hmem, read_write_other _ _ _ _ hb]
  have haddr : a = (effectiveAddress f s).toNat := by
    by_contra hne
    exact hchanged (hother a hne)
  exact ⟨w, f, hf, hd, he, haddr, hea, haddr ▸ hother⟩

end Sys2Proof.Machine

/-! ## HALT and jumps (R130 to R136)

The one next state of an executed HALT, and that nothing else sets the halted bit; the jump of the six ALU
instructions; the jump to itself, which changes the flags only, and its run. -/

namespace Sys2Proof.Machine

/-! ### HALT -/

/-- R109: HALT's result is 0 and its flags are Z, whatever its operands are. -/
theorem alu_halt (left right : Word) : alu .halt left right = some (0#32, flagZ) := rfl

/-- R130: an executed HALT advances the program counter, sets the halted bit and leaves the flags Z. -/
theorem exec_halt_executed {f : Fields} {s : State} (he : Executes f.pred s.flags) :
    exec (.halt f) s = .next ((s.advancePc.withHalted true).withFlags flagZ) :=
  (exec_eq_execute (.halt f) s).trans (execute_alu_some (i := .halt f) he (alu_halt _ _))

/-- Settles O40: the next state is that of the PC advance, but for the halted bit and the flags. -/
theorem haltCompletes : Obligations.HaltCompletes :=
  fun _ s he => ⟨_, exec_halt_executed he, rfl, rfl, readReg_advancePc s, rfl, rfl, fun _ => rfl, ⟨rfl, rfl⟩⟩

/-- R136: the write-back of HALT alone writes the halted bit. -/
theorem writeBackOf_done_halted {i : Instr} {result : Word} {s t : State}
    (h : writeBackOf i result s = .done t) :
    t.halted = s.halted ∨ ∃ f, i = .halt f ∧ t = s.withHalted true := by
  obtain ⟨f, v, s', -, hread, rfl⟩ | ⟨f, rfl, hwrite⟩ | hhalt | ⟨rfl, -⟩ := writeBackOf_done h
  · rw [writeReg_halted]
    obtain ⟨-, rest, -, rfl⟩ | ⟨-, -, -, -, rfl⟩ := memRead_done hread <;> exact .inl rfl
  · obtain ⟨-, rfl⟩ | ⟨-, -, -, rfl⟩ := memWrite_done hwrite <;> exact .inl rfl
  · exact .inr hhalt
  · exact .inl (writeReg_halted _ _ _)

/-- R136: a step keeps the halted bit, or it runs an executed HALT. -/
theorem step_next_halted {s t : State} (h : step s = .next t) :
    t.halted = s.halted ∨
    (∃ w f, s.fetch s.pc = some w ∧ decode w = .ok (.halt f) ∧ Executes f.pred s.flags) ∧
      t = (s.advancePc.withHalted true).withFlags flagZ := by
  obtain rfl | ⟨r, rfl⟩ | ⟨w, i, result, x, s', hf, hd, he, ha, hw, rfl⟩ := step_next_completes h
  · exact .inl rfl
  · exact .inl rfl
  obtain hkeep | ⟨f, rfl, rfl⟩ := writeBackOf_done_halted hw
  · exact .inl hkeep
  · obtain ⟨-, rfl⟩ := Prod.mk.inj (Option.some.inj ((alu_halt _ _).symm.trans ha))
    exact .inr ⟨⟨w, f, hf, hd, he⟩, rfl⟩

/-- Settles O48: the halted bit is clear before any step, so a step that ends with it set did not keep it. -/
theorem onlyHaltStopsTheMachine : Obligations.OnlyHaltStopsTheMachine := by
  intro s t h hhalted
  obtain ⟨hfault, hrunning, -⟩ := step_next h
  obtain hkeep | ⟨hhalt, rfl⟩ := step_next_halted h
  · rw [hkeep, hrunning] at hhalted
    cases hhalted
  · exact ⟨hhalt, hfault, rfl, rfl⟩

/-! ### The jumps of the ALU instructions -/

theorem writeBackOf_alu {op : Opcode} (h : op ∈ [Opcode.add, .sub, .mul, .div, .and, .or]) (f : Fields) :
    writeBackOf (op.instr f) = writeBackResult f := by
  cases op with
  | add | sub | mul | div | and | or => rfl
  | halt | load | store => exact absurd h (by decide)

/-- R132: the write to r15 replaces the advance of the program counter. -/
theorem exec_alu_jump {op : Opcode} {f : Fields} {s : State} {result : Word} {x : Flags}
    (hop : op ∈ [Opcode.add, .sub, .mul, .div, .and, .or]) (htarget : f.target = 15)
    (he : Executes f.pred s.flags) (ha : alu op (leftOperand f s) (rightOperand f s) = some (result, x)) :
    exec (op.instr f) s = .next ((s.withPc result).withFlags x) := by
  rw [exec_eq_execute, writeBackOf_alu hop, execute_alu_some (by simpa using he) (by simpa using ha),
    writeBackResult, htarget]
  rfl

/-- R143: a division by zero is the one way for an executed instruction to end in the ALU. -/
theorem exec_alu_none {op : Opcode} {f : Fields} {s : State} (he : Executes f.pred s.flags)
    (ha : alu op (leftOperand f s) (rightOperand f s) = none) :
    op = .div ∧ rightOperand f s = 0#32 ∧ exec (op.instr f) s = .next (s.raiseDivisionByZero (op.instr f)) := by
  obtain ⟨hop, hzero⟩ := alu_eq_none ha
  refine ⟨hop, eq_zero_of_toInt hzero, ?_⟩
  rw [exec_eq_execute, execute_alu_none (by simpa using he) (by simpa using ha)]

/-- Settles O41: the predicate test, and then the ALU's answer, tell the three cases apart. -/
theorem aluJumpGoesToResult : Obligations.AluJumpGoesToResult := by
  intro op f s hop htarget
  refine ⟨fun hskip => ?skipped, fun he => ?executed⟩
  case skipped => exact skippedInstructionOnlyAdvances (op.instr f) s (by simpa using hskip)
  case executed =>
    split
    next result x ha => exact exec_alu_jump hop htarget he ha
    next ha => exact exec_alu_none he ha

/-! ### The jump to itself -/

/-- R101: a word that is not negative is 0 or positive. -/
theorem signFlag_of_nonneg {w : Word} (h : 0 ≤ w.toInt) :
    signFlag w = if w = 0#32 then 0b0010#4 else 0b0100#4 := by
  have hzero : w.toInt = 0 ↔ w = 0#32 := BitVec.toInt_inj (y := 0#32)
  rw [signFlag, if_neg (by omega)]
  simp only [hzero]
  rfl

/-- R132, R84: the jump with offset 0 from its own address leaves that address, and its sign in the flags. -/
theorem exec_jump_to_self {p : Predicate} {s : State} (he : Executes p s.flags) :
    exec (.add ⟨p, 15, 0, 15, 0⟩) s = .next (s.withFlags (signFlag s.pc)) := by
  have hright : rightOperand ⟨p, 15, 0, 15, 0⟩ s = s.pc :=
    (congrArg wrap32 (Int.add_zero _)).trans (wrap32_toInt s.pc)
  have halu : alu .add 0#32 s.pc = some (s.pc, signFlag s.pc) := by
    rw [alu, aluExact, exactAdd, BitVec.toInt_zero, Int.zero_add, Option.map_some, aluResult, wrap32_toInt,
      flagsOf_fits rfl]
  exact exec_alu_jump (op := .add) (by decide) rfl he (by rw [hright]; exact halu)

theorem step_jump_to_self {s : State} {w : Word} {p : Predicate} (hrun : Running s)
    (hf : s.fetch s.pc = some w) (hd : decode w = .ok (.add ⟨p, 15, 0, 15, 0⟩)) (he : Executes p s.flags) :
    step s = .next (s.withFlags (signFlag s.pc)) :=
  (step_of_decode_ok hrun hf hd).trans (exec_jump_to_self he)

/-- R92: the run changes the flags only, and to flags that the predicate of the jump passes. -/
theorem runLoop_jump_to_self {s : State} {w : Word} {p : Predicate} (hrun : Running s)
    (hf : s.fetch s.pc = some w) (hd : decode w = .ok (.add ⟨p, 15, 0, 15, 0⟩)) (he : Executes p s.flags)
    (hagain : Executes p (signFlag s.pc)) (n : Nat) :
    ∃ x, runLoop n s = s.withFlags x ∧ Executes p x := by
  induction n generalizing s with
  | zero => exact ⟨s.flags, rfl, he⟩
  | succ n ih =>
    rw [runLoop_of_step (step_jump_to_self hrun hf hd he)]
    exact ih (s := s.withFlags (signFlag s.pc)) hrun hf hagain hagain

/-- Settles O52: the address was fetched from, so it is not negative; and what fetches and jumps from it now
does so with any flags that the predicate passes. -/
theorem jumpToSelfRunsForever : Obligations.JumpToSelfRunsForever := by
  intro s w p n hrun hf hd he hagain
  obtain ⟨⟨hnonneg, -⟩, -⟩ := fetch_eq_some hf
  rw [← signFlag_of_nonneg hnonneg] at hagain
  obtain ⟨x, hloop, hx⟩ := runLoop_jump_to_self hrun hf hd he hagain n
  rw [hloop]
  exact ⟨hrun, rfl, _, step_jump_to_self (s := s.withFlags x) hrun hf hd hx⟩

end Sys2Proof.Machine

/-! ## Faults (R140 to R149)

The opcode that does not decode; then the record of each cause against the machine that records it. Every step
that faults is one of these, so the statements about the record, its cause and its frame follow from one
inversion. -/

namespace Sys2Proof

theorem number_legal (op : Opcode) : op.number ≠ 4 ∧ op.number < 10 := by cases op <;> decide

/-- R62: a word whose opcode field is no opcode's number is refused. -/
theorem decode_error_of_illegal {w : Word} (h : w.toNat / 2 ^ 26 = 4 ∨ 10 ≤ w.toNat / 2 ^ 26) :
    ∃ e, decode w = .error e := by
  cases hd : decode w with
  | error e => exact ⟨e, rfl⟩
  | ok i =>
    obtain ⟨hnumber, -⟩ := decode_ok hd
    obtain ⟨hne, hlt⟩ := number_legal i.opcode
    rw [← extract_opcodeField] at h
    omega

end Sys2Proof

namespace Sys2Proof.Machine

/-- Settles O55: such a word does not decode, and the step faults before it would test the predicate. -/
theorem unknownOpcodeFaults : Obligations.UnknownOpcodeFaults := by
  intro s w hrun hf hillegal
  obtain ⟨e, hd⟩ := decode_error_of_illegal hillegal
  exact step_of_decode_error hrun hf hd

/-! ### Each record is true of the machine that records it -/

theorem faultRecordTrue_fetchFault {s : State} (hf : s.fetch s.pc = none) :
    FaultRecordTrue s ⟨.memoryFault, .fetch, s.pc, 0#32⟩ := by
  refine ⟨rfl, rfl, fun ⟨hrange, hin, hout⟩ => ?_⟩
  rw [fetch_of_storage hrange hin hout] at hf
  cases hf

theorem faultRecordTrue_unknownOpcode {s : State} {w : Word} {e : DecodeError} (hf : s.fetch s.pc = some w)
    (hd : decode w = .error e) : FaultRecordTrue s ⟨.unknownOpcode, .fetch, s.pc, w⟩ :=
  ⟨rfl, hf, e, hd⟩

/-- R143: the ALU gives no result for a DIV by 0 only. -/
theorem faultRecordTrue_divisionByZero {s : State} {w : Word} {i : Instr} (hf : s.fetch s.pc = some w)
    (hd : decode w = .ok i) (he : Executes i.fields.pred s.flags)
    (ha : alu i.opcode (leftOperand i.fields s) (rightOperand i.fields s) = none) :
    FaultRecordTrue s ⟨.divisionByZero, .fetch, s.pc, w⟩ := by
  obtain ⟨hop, hzero⟩ := alu_eq_none ha
  have hdiv : Opcode.div.instr i.fields = i := hop ▸ instr_eta i
  exact ⟨rfl, hf, i.fields, hd.trans (congrArg Except.ok hdiv.symm), he, eq_zero_of_toInt hzero⟩

/-- R145: a write-back faults as that of a LOAD or a STORE whose address does not take its access. -/
theorem faultRecordTrue_dataFault {s : State} {w result : Word} {i : Instr} {x : Flags} {k : AccessKind}
    (hf : s.fetch s.pc = some w) (hd : decode w = .ok i) (he : Executes i.fields.pred s.flags)
    (ha : alu i.opcode (leftOperand i.fields s) (rightOperand i.fields s) = some (result, x))
    (hw : writeBackOf i result s.advancePc = .memoryFault k) :
    FaultRecordTrue s ⟨.memoryFault, k, result, w⟩ := by
  obtain ⟨f, rfl, hread⟩ | ⟨f, rfl, hwrite⟩ := writeBackOf_fault hw
  · obtain ⟨rfl, hin, hbad⟩ := memRead_fault hread
    exact ⟨hf, f, hd, he, eq_effectiveAddress_of_alu (.inl rfl) ha, hin,
      fun ⟨hrange, _, hout⟩ => hbad.elim hout (· hrange)⟩
  · obtain ⟨rfl, hout, hbad⟩ := memWrite_fault hwrite
    exact ⟨hf, f, hd, he, eq_effectiveAddress_of_alu (.inr rfl) ha, hout,
      fun ⟨hrange, hin, _⟩ => hbad.elim hin (· hrange)⟩

/-! ### Every step that faults -/

/-- R144: a write-back that finishes leaves the fault record alone. -/
theorem writeBackOf_done_faultRecord {i : Instr} {result : Word} {s t : State}
    (h : writeBackOf i result s = .done t) : t.fault = s.fault := by
  obtain ⟨f, v, s', -, hread, rfl⟩ | ⟨f, -, hwrite⟩ | ⟨f, -, rfl⟩ | ⟨rfl, -⟩ := writeBackOf_done h
  · rw [writeReg_fault]
    obtain ⟨-, rest, -, rfl⟩ | ⟨-, -, -, -, rfl⟩ := memRead_done hread <;> rfl
  · obtain ⟨-, rfl⟩ | ⟨-, -, -, rfl⟩ := memWrite_done hwrite <;> rfl
  · rfl
  · exact writeReg_fault _ _ _

/-- R59, R144: a fetched instruction whose execution faults writes a true record and nothing else. -/
theorem exec_next_faulted {i : Instr} {w : Word} {s t : State} {r : FaultRecord} (hrun : s.fault = none)
    (hf : s.fetch s.pc = some w) (hd : decode w = .ok i) (h : exec i s = .next t) (hr : t.fault = some r) :
    t = s.raise r ∧ FaultRecordTrue s r := by
  obtain rfl := encode_of_decode hd
  rw [exec_eq_execute] at h
  obtain ⟨-, rfl⟩ | ⟨he, ha, rfl⟩ | ⟨result, x, he, ha, ⟨k, hw, rfl⟩ | ⟨s', hw, rfl⟩⟩ := execute_next h
  · exact absurd (hrun.symm.trans hr) nofun
  · obtain rfl := Option.some.inj hr
    exact ⟨rfl, faultRecordTrue_divisionByZero hf hd he ha⟩
  · obtain rfl := Option.some.inj hr
    exact ⟨rfl, faultRecordTrue_dataFault hf hd he ha hw⟩
  · have hnone : s'.fault = none := (writeBackOf_done_faultRecord hw).trans hrun
    exact absurd (hnone.symm.trans hr) nofun

/-- R91, R141, R144: a step that faults writes a true record and nothing else. -/
theorem step_next_faulted {s t : State} {r : FaultRecord} (h : step s = .next t) (hr : t.fault = some r) :
    t = s.raise r ∧ FaultRecordTrue s r := by
  obtain ⟨hrun, -, ⟨hf, rfl⟩ | ⟨w, e, hf, hd, rfl⟩ | ⟨w, i, hf, hd, hexec⟩⟩ := step_next h
  · obtain rfl := Option.some.inj hr
    exact ⟨rfl, faultRecordTrue_fetchFault hf⟩
  · obtain rfl := Option.some.inj hr
    exact ⟨rfl, faultRecordTrue_unknownOpcode hf hd⟩
  · exact exec_next_faulted hrun hf hd hexec hr

/-- Settles O56: the next state is the old one with the record raised. -/
theorem faultsArePrecise : Obligations.FaultsArePrecise := by
  intro s t h hfault
  obtain ⟨r, hr⟩ := Option.ne_none_iff_exists'.mp hfault
  rw [hr]
  exact (step_next_faulted h hr).1

/-- R141: of the nine pairs of codes, a true record has one of five. -/
theorem codes_of_faultRecordTrue {s : State} {r : FaultRecord} (h : FaultRecordTrue s r) :
    (r.cause.code.toNat, r.kind.code.toNat) ∈ [(1, 0), (2, 0), (3, 0), (3, 1), (3, 2)] := by
  obtain ⟨cause, kind, addr, info⟩ := r
  dsimp only
  cases cause with
  | memoryFault => cases kind <;> decide
  | unknownOpcode | divisionByZero =>
    cases kind with
    | fetch => decide
    | load | store => exact h.elim

/-- Settles O57: the step raised a true record, which leaves the program counter where it was. -/
theorem faultRecordTellsTheTruth : Obligations.FaultRecordTellsTheTruth := by
  intro s t r h hr
  obtain ⟨rfl, htrue⟩ := step_next_faulted h hr
  exact ⟨htrue, rfl, codes_of_faultRecordTrue htrue⟩

/-! ### Division by zero -/

/-- R141, R143: what a true record of the cause DivisionByZero says. -/
theorem div_of_faultRecordTrue {s : State} {r : FaultRecord} (h : FaultRecordTrue s r)
    (hcause : r.cause = .divisionByZero) :
    ∃ f, s.fetch s.pc = some r.info ∧ decode r.info = .ok (.div f) ∧ Executes f.pred s.flags ∧
      rightOperand f s = 0#32 := by
  obtain ⟨cause, kind, addr, info⟩ := r
  obtain rfl : cause = .divisionByZero := hcause
  cases kind with
  | fetch =>
    obtain ⟨-, hf, f, hd, he, hzero⟩ := h
    exact ⟨f, hf, hd, he, hzero⟩
  | load | store => exact h.elim

/-- Settles O28: the DIV at the program counter records its own word; and a record of this cause, being true,
tells of such a DIV. -/
theorem divByZeroFaults : Obligations.DivByZeroFaults := by
  refine ⟨fun s w f hrun hf hd he hzero => ?faults, fun s t r h hr hcause => ?only⟩
  case faults =>
    obtain ⟨hexec, -⟩ := divCompletes f s he
    rw [step_of_decode_ok hrun hf hd, hexec hzero, encode_of_decode hd]
  case only => exact div_of_faultRecordTrue (step_next_faulted h hr).2 hcause

end Sys2Proof.Machine

/-! ## Reset, start and the loading of storage (R160 to R167)

What the host's moves do. Whether a single write is a move is said once, by two equations of `hostLoad`; the
words of an image then follow write by write. -/

namespace Sys2Proof.Machine

/-! ### Writes to storage by the host -/

/-- R161: a machine that is not Running is Faulted or has its halted bit set. -/
theorem not_running_iff {s : State} : ¬ Running s ↔ s.fault ≠ none ∨ s.halted = true := by
  simp only [Running, not_and_or, Bool.not_eq_false, ne_eq]

theorem hostLoad_of_stopped {s : State} {a : Nat} (hstopped : ¬ Running s) (ha : a < s.config.memWords)
    (v : Word) : s.hostLoad a v = some (s.withMem (s.mem.write a v)) :=
  if_pos ⟨not_running_iff.mp hstopped, ha⟩

theorem hostLoad_eq_none {s : State} {a : Nat} (h : Running s ∨ s.config.memWords ≤ a) (v : Word) :
    s.hostLoad a v = none := by
  refine if_neg fun ⟨hstopped, ha⟩ => ?_
  obtain hrun | hle := h
  · exact not_running_iff.mpr hstopped hrun
  · exact Nat.not_lt.mpr hle ha

/-- Settles O12: the write the host may make reads back at its own address alone. -/
theorem hostLoadsOnlyWhileStopped : Obligations.HostLoadsOnlyWhileStopped :=
  fun s a v hwf => ⟨fun hrun => hostLoad_eq_none (.inl hrun) v, fun hle => hostLoad_eq_none (.inr hle) v,
    fun hstopped ha => ⟨_, hostLoad_of_stopped hstopped ha v, fun b => read_write s.mem a b v hwf, rfl⟩⟩

/-! ### Images -/

/-- R165: an image is loaded by a write of its first word, then by an image at the next address. -/
theorem hostLoadImage_cons_eq_some {s t : State} {a : Nat} {v : Word} {vs : List Word}
    (h : s.hostLoadImage a (v :: vs) = some t) :
    (s.withMem (s.mem.write a v)).hostLoadImage (a + 1) vs = some t := by
  obtain ⟨s', hload, himage⟩ := Option.bind_eq_some_iff.mp h
  obtain ⟨-, -, rfl⟩ := hostLoad_eq_some hload
  exact himage

/-- Settles O13, by induction on the image: at each write `b` is below the address written, is that address,
or is left to the rest of the image. -/
theorem imageWordKAtAddressK : Obligations.ImageWordKAtAddressK := by
  intro s t a vs hwf h b
  induction vs generalizing s a with
  | nil =>
    obtain rfl : s = t := Option.some.inj h
    exact (if_neg fun ⟨hle, hlt⟩ => Nat.not_lt.mpr hle hlt).symm
  | cons v vs ih =>
    rw [ih _ _ (wf_write s.mem a v hwf) (hostLoadImage_cons_eq_some h), withMem_mem, read_write _ _ _ _ hwf,
      List.length_cons]
    obtain hbelow | rfl | habove := Nat.lt_trichotomy b a
    · rw [if_neg (by omega), if_neg (by omega), if_neg (by omega)]
    · simp
    · obtain ⟨k, rfl⟩ := Nat.exists_eq_add_of_lt habove
      have hrest : a + k + 1 - (a + 1) = k := by omega
      have hwhole : a + k + 1 - a = k + 1 := by omega
      have hbounds : a + 1 ≤ a + k + 1 ∧ a + k + 1 < a + 1 + vs.length ↔
          a ≤ a + k + 1 ∧ a + k + 1 < a + (vs.length + 1) := by omega
      rw [hrest, hwhole, List.getElem?_cons_succ, if_neg (show a + k + 1 ≠ a by omega)]
      simp only [hbounds]

/-! ### Reset and start -/

/-- R160: the program counter and the registers are among what a reset sets, whatever the state. -/
theorem readReg_hostReset (s : State) (r : RegNum) : s.hostReset.readReg r = 0#32 := readReg_reset r

theorem halted_hostReset (s : State) : Halted s.hostReset := ⟨rfl, rfl⟩

/-- Settles O10: a reset machine is Halted, so it takes no step. -/
theorem hostResetRestoresCore : Obligations.HostResetRestoresCore :=
  fun s => ⟨readReg_hostReset s, rfl, halted_hostReset s, rfl, rfl, rfl, rfl,
    step_of_halted (halted_hostReset s)⟩

/-- Settles O11: of the two cases of `start`, each clause excludes the other's. -/
theorem startSetsPcAndRuns : Obligations.StartSetsPcAndRuns := by
  intro s a
  obtain ⟨hhalted, hstart⟩ | ⟨hhalted, hstart⟩ := start_cases s a
  · exact ⟨fun _ => hstart, fun h => absurd hhalted h⟩
  · exact ⟨fun h => absurd h hhalted, fun _ => hstart⟩

end Sys2Proof.Machine
